-- ==== Sys2Proof/Word.lean ====
section
/-! DEFINITION. The word types of the core: bytes, 32-bit words of a frame, 64-bit lanes of the state, and the 4-bit
context index and variant id of a command word (spec/00_scope.md R7, R10, R11; spec/30_encoding.md R81). -/

namespace Sys2Proof

/-- The unit of input and output (20_memory R66). -/
abbrev Byte := BitVec 8

/-- A command word or an operand word of a frame (30_encoding R80). -/
abbrev Word := BitVec 32

/-- One of the 25 lanes of the state, `w` = 64 bits (00_scope R7). -/
abbrev Lane := BitVec 64

/-- The CTX and AUX fields as context indices, 0 to 15, zero-extended (30_encoding R81, R86). -/
abbrev CtxIndex := BitVec 4

/-- The AUX field of INIT and the field VAR of a context (30_encoding R89, 10_state R32). -/
abbrev VariantId := BitVec 4

end Sys2Proof
end

