-- ==== Sys2Proof/Config.lean ====
section
/-! DEFINITION. What an implementation fixes (spec/00_scope.md R7, R8), the shape of a row of the variant table
(spec/43_engine_commands.md R161), and the free values: constants with no body, so that nothing can be proved of them. -/

namespace Sys2Proof

/-- XOF_BLOCK_SIZE (00_scope R8, 92 D15): whether QUERY reports the block size of an XOF row as 0 ("not applicable", the
default) or as its rate. -/
inductive XofBlockSize where
  /-- BSZ = 0 for the XOF rows. -/
  | na
  /-- BSZ = R for the XOF rows. -/
  | rate
deriving DecidableEq, Repr

/-- One row of the variant configuration table (43_engine R161), as the core holds it: no strings (R174). -/
structure VariantRow where
  /-- The variant id (30_encoding R89). -/
  id : VariantId
  /-- R, the rate in bytes. -/
  rate : Byte
  /-- D, the digest size in bytes; 0 marks an XOF row. -/
  digestSize : Byte
  /-- d, the delimited domain-separation suffix (42_padding R154). -/
  suffix : Byte
  /-- BSZ, the block size QUERY reports; 0 is "not applicable". -/
  blockSize : Byte
deriving DecidableEq, Repr

namespace Config

/-- NCTX of the machine that `State.reset` describes (00_scope R8). DESIGN CHOICE, log entry 3: the spec leaves NCTX open,
1 to 16, and its examples use 2. Unsafe for a claim about `State.reset` alone; statements quantify over every NCTX. -/
def nctx : Nat := 2

/-- The largest NCTX: what the 4-bit CTX field can name (00_scope R8, 92 D2). -/
def nctxMax : Nat := 16

/-- XOF_BLOCK_SIZE of the machine that `State.reset` describes: the spec's default (00_scope R8; log entry 4). -/
def xofBlockSize : XofBlockSize := .na

/-- SB, the state size in bytes (00_scope R7). -/
def stateBytes : Nat := 200

/-- BUF_BYTES, the capacity of an input buffer (00_scope R7, 10_state R36). -/
abbrev bufBytes : Nat := 167

/-- R_MAX, the largest rate in bytes of any variant (00_scope R7). -/
def rateMax : Nat := 168

/-- The largest LEN and N, 2^32 - 1 (30_encoding R82). -/
def lenMax : Nat := 4294967295

/-- nr, the number of rounds of the permutation (00_scope R7). -/
def rounds : Nat := 24

/-- A free byte (log entry 6): the value of a byte-wide field that the spec says "becomes unspecified". `draw` is the state's
counter of draws and `slot` tells the fields of one draw apart. No body: a claim about it holds whatever it is. -/
opaque freeByte (draw slot : Nat) : Byte

/-- A free lane (log entry 6), as `freeByte`. -/
opaque freeLane (draw slot : Nat) : Lane

end Config

end Sys2Proof
end

