-- ==== Sys2Proof/Syntax.lean ====
section
/-! DEFINITION. The instruction set: the seven commands of spec/opcode_table.json (spec/30_encoding.md R85), one
constructor a row. A word that is none of them is ILLEGAL (R84) and is no instruction: the step answers it. -/

namespace Sys2Proof

/-- A command with its operands (30_encoding R85). `ctx` is the CTX field, the target context index. -/
inductive Instr where
  /-- INIT (43_engine R162): configure a context for a variant id, any of 0 to 15. -/
  | init (ctx : CtxIndex) (variant : VariantId)
  /-- UPDATE (43_engine R163): the operand word LEN and the payload bytes, first byte first. -/
  | update (ctx : CtxIndex) (len : Word) (payload : List Byte)
  /-- DIGEST (43_engine R164); `hex` is W[12]. -/
  | digest (ctx : CtxIndex) (hex : Bool)
  /-- SQUEEZE (43_engine R165); `n` is the operand word N, `hex` is W[12]. -/
  | squeeze (ctx : CtxIndex) (hex : Bool) (n : Word)
  /-- COPY (43_engine R166): destination CTX, source AUX. -/
  | copy (dst src : CtxIndex)
  /-- FREE (43_engine R167). -/
  | free (ctx : CtxIndex)
  /-- QUERY (43_engine R168). -/
  | query (ctx : CtxIndex)
deriving DecidableEq, Repr

end Sys2Proof
end

