-- ==== Sys2Proof/WellFormed.lean ====
section
/-! DEFINITION. Which terms of `Instr` a frame can carry (spec/30_encoding.md R80, R82). -/

namespace Sys2Proof

/-- A command that some frame carries: the payload of an UPDATE has exactly LEN bytes (30_encoding R80). Every other field is
already as wide as the word's. -/
def Instr.wellFormed : Instr → Bool
  | .init _ _ => true
  | .update _ len payload => payload.length == len.toNat
  | .digest _ _ => true
  | .squeeze _ _ _ => true
  | .copy _ _ => true
  | .free _ => true
  | .query _ => true

end Sys2Proof
end

