-- ==== Sys2Proof/Decode.lean ====
section
/-! DEFINITION. The decoder of command frames, total on every byte list, and after it the encoder
(spec/30_encoding.md R80 to R95). -/

namespace Sys2Proof

/-! ## Words and fields -/

/-- A 32-bit word from the next four bytes, least significant byte first (R80), with the bytes after it. -/
def takeWord : List Byte → Option (Word × List Byte)
  | b0 :: b1 :: b2 :: b3 :: rest => some (b3 ++ b2 ++ b1 ++ b0, rest)
  | _ => none

/-- The four bytes of a word, least significant byte first (R80). -/
def wordBytes (w : Word) : List Byte :=
  [w.extractLsb' 0 8, w.extractLsb' 8 8, w.extractLsb' 16 8, w.extractLsb' 24 8]

/-- OPC = W[3:0] (R81). -/
def opcField (w : Word) : BitVec 4 := w.extractLsb' 0 4

/-- CTX = W[7:4] (R81). -/
def ctxField (w : Word) : CtxIndex := w.extractLsb' 4 4

/-- AUX = W[11:8] (R81). -/
def auxField (w : Word) : BitVec 4 := w.extractLsb' 8 4

/-- HEX = W[12] (R81). -/
def hexField (w : Word) : Bool := w.getLsbD 12

/-- RSV = W[31:13] (R81). -/
def rsvField (w : Word) : BitVec 19 := w.extractLsb' 13 19

/-! ## The opcode map -/

/-- The seven mnemonics of R85. -/
inductive Opcode where
  | init | update | digest | squeeze | copy | free | query
deriving DecidableEq, Repr

/-- A row of the match and mask table of R85. -/
structure OpcodeRow where
  opcode : Opcode
  /-- The bits a word must have under `mask`. -/
  pattern : Word
  /-- The bits the row fixes; CTX is free, and AUX or HEX where legal. -/
  mask : Word
deriving DecidableEq, Repr

/-- Match and mask per command (R85). -/
def opcodeTable : List OpcodeRow :=
  [ ⟨.init,    0x00000001#32, 0xFFFFF00F#32⟩,
    ⟨.update,  0x00000002#32, 0xFFFFFF0F#32⟩,
    ⟨.digest,  0x00000003#32, 0xFFFFEF0F#32⟩,
    ⟨.squeeze, 0x00000004#32, 0xFFFFEF0F#32⟩,
    ⟨.copy,    0x00000005#32, 0xFFFFF00F#32⟩,
    ⟨.free,    0x00000006#32, 0xFFFFFF0F#32⟩,
    ⟨.query,   0x00000007#32, 0xFFFFFF0F#32⟩ ]

/-- Whether a word matches a row of R85. -/
def OpcodeRow.fits (row : OpcodeRow) (w : Word) : Bool := w &&& row.mask == row.pattern

/-- The command a word stands for; none is an ILLEGAL word: "a word that matches no row is ILLEGAL" (R85, R88). -/
def opcodeOf (w : Word) : Option Opcode := (opcodeTable.find? (·.fits w)).map (·.opcode)

/-- The command of a word with its operands (R86): the operand word and the payload are those of the frame, and a command
that has none ignores them. None where the word is ILLEGAL. -/
def instrOf (w operand : Word) (payload : List Byte) : Option Instr :=
  match opcodeOf w with
  | some .init => some (.init (ctxField w) (auxField w))
  | some .update => some (.update (ctxField w) operand payload)
  | some .digest => some (.digest (ctxField w) (hexField w))
  | some .squeeze => some (.squeeze (ctxField w) (hexField w) operand)
  | some .copy => some (.copy (ctxField w) (auxField w))
  | some .free => some (.free (ctxField w))
  | some .query => some (.query (ctxField w))
  | none => none

/-! ## Frames -/

/-- What stands at the head of the bytes the host has sent. -/
inductive Decoded where
  /-- A whole frame of a command, and the bytes after it. -/
  | command (i : Instr) (rest : List Byte)
  /-- A whole frame whose word is ILLEGAL (R84), and the bytes after it: the frame is consumed, payload included (R83). -/
  | illegal (rest : List Byte)
  /-- Less than a whole frame (70_reset R247 H1, H2). -/
  | incomplete
deriving DecidableEq, Repr

/-- A whole frame decoded: its command, or ILLEGAL. -/
def decodeFrame (w operand : Word) (payload rest : List Byte) : Decoded :=
  match instrOf w operand payload with
  | some i => .command i rest
  | none => .illegal rest

/-- Read the frame at the head of a byte list (R95). Its length depends on OPC alone, the ILLEGAL words included (R83). -/
def decode (bs : List Byte) : Decoded :=
  match takeWord bs with
  | none => .incomplete
  | some (w, rest) =>
    if opcField w = 2 then
      match takeWord rest with
      | none => .incomplete
      | some (len, rest) =>
        if rest.length < len.toNat then .incomplete
        else decodeFrame w len (rest.take len.toNat) (rest.drop len.toNat)
    else if opcField w = 4 then
      match takeWord rest with
      | none => .incomplete
      | some (n, rest) => decodeFrame w n [] rest
    else decodeFrame w 0 [] rest

/-- The length in bytes of the frame of a word, given its operand word (R83). -/
def frameLength (w operand : Word) : Nat :=
  if opcField w = 2 then 8 + operand.toNat
  else if opcField w = 4 then 8
  else 4

/-! ## The host's reading of an opcode-table word -/

/-- The bytes of the one frame whose bits are `v` below bit `nbits` and 0 above: bit 0 is the least significant bit of the
command word, which lies first, least significant byte first (R80). -/
def tableBytes (nbits v : Nat) : List Byte :=
  let v := v % 2 ^ nbits
  let w : Word := BitVec.ofNat 32 v
  let operand : Word := BitVec.ofNat 32 (v >>> 32)
  (List.range (frameLength w operand)).map fun k => BitVec.ofNat 8 (v >>> (8 * k))

/-- The instruction the decoder reads from an opcode-table word of `nbits` bits; none where it is ILLEGAL. -/
def decodeTableWord (nbits w : Nat) : Option Instr :=
  match decode (tableBytes nbits w) with
  | .command i _ => some i
  | .illegal _ => none
  | .incomplete => none

/-! ## The encoder -/

/-- A command word from its fields (R81), RSV = 0. -/
def commandWord (opc : BitVec 4) (ctx : CtxIndex) (aux : BitVec 4) (hex : Bool) : Word :=
  (0 : BitVec 19) ++ BitVec.ofBool hex ++ aux ++ ctx ++ opc

/-- The OPC value of a command (R85). -/
def opcodeValue : Instr → BitVec 4
  | .init _ _ => 1
  | .update _ _ _ => 2
  | .digest _ _ => 3
  | .squeeze _ _ _ => 4
  | .copy _ _ => 5
  | .free _ => 6
  | .query _ => 7

/-- The command word of a command (R81, R85, R86). -/
def encodeWord : Instr → Word
  | .init c v => commandWord 1 c v false
  | .update c _ _ => commandWord 2 c 0 false
  | .digest c hex => commandWord 3 c 0 hex
  | .squeeze c hex _ => commandWord 4 c 0 hex
  | .copy dst src => commandWord 5 dst src false
  | .free c => commandWord 6 c 0 false
  | .query c => commandWord 7 c 0 false

/-- The bytes of a command's frame after its command word: the operand word of UPDATE and SQUEEZE, then UPDATE's payload
(R80). -/
def encodeOperands : Instr → List Byte
  | .update _ len payload => wordBytes len ++ payload
  | .squeeze _ _ n => wordBytes n
  | .init _ _ => []
  | .digest _ _ => []
  | .copy _ _ => []
  | .free _ => []
  | .query _ => []

/-- The frame of a command (R80). -/
def encode (i : Instr) : List Byte := wordBytes (encodeWord i) ++ encodeOperands i

end Sys2Proof
end

