-- ==== Sys2Proof/Machine/Table.lean ====
section
/-! DEFINITION. The variant configuration table (spec/43_engine_commands.md R161) and the host names of its rows (R174). -/

namespace Sys2Proof.Machine

/-- BSZ of an XOF row (00_scope R8, 43_engine R161). -/
def xofBsz (x : XofBlockSize) (rate : Byte) : Byte :=
  match x with
  | .na => 0
  | .rate => rate

/-- The ten rows of R161: id, R, D, d, BSZ. The values are the spec's, which marks R, D, d and the row set as supplied from
general knowledge (93 G8, G9). -/
def variantTable (x : XofBlockSize) : List VariantRow :=
  [ ⟨0,  144, 28, 0x06, 144⟩,
    ⟨1,  136, 32, 0x06, 136⟩,
    ⟨2,  104, 48, 0x06, 104⟩,
    ⟨3,  72,  64, 0x06, 72⟩,
    ⟨4,  168, 0,  0x1F, xofBsz x 168⟩,
    ⟨5,  136, 0,  0x1F, xofBsz x 136⟩,
    ⟨8,  144, 28, 0x01, 144⟩,
    ⟨9,  136, 32, 0x01, 136⟩,
    ⟨10, 104, 48, 0x01, 104⟩,
    ⟨11, 72,  64, 0x01, 72⟩ ]

/-- The row of a variant id, none where the id is unassigned (30_encoding R89). -/
def tableRow (table : List VariantRow) (v : VariantId) : Option VariantRow := table.find? (·.id == v)

/-- The variant and host-name columns of R161, by variant id. The core holds no strings: the host maps the VARIANT byte of
QUERY to the name (R174). -/
def variantNames : List (VariantId × String × String) :=
  [ (0,  "SHA3-224",   "sha3_224"),
    (1,  "SHA3-256",   "sha3_256"),
    (2,  "SHA3-384",   "sha3_384"),
    (3,  "SHA3-512",   "sha3_512"),
    (4,  "SHAKE128",   "shake_128"),
    (5,  "SHAKE256",   "shake_256"),
    (8,  "Keccak-224", "keccak_224"),
    (9,  "Keccak-256", "keccak_256"),
    (10, "Keccak-384", "keccak_384"),
    (11, "Keccak-512", "keccak_512") ]

/-- The variant name of an id (R161, R92). -/
def variantName (v : VariantId) : Option String := (variantNames.find? (·.1 == v)).map (·.2.1)

/-- The `name` property of a variant id (R174). -/
def hostName (v : VariantId) : Option String := (variantNames.find? (·.1 == v)).map (·.2.2)

end Sys2Proof.Machine
end

