-- ==== Sys2Proof/Machine/State.lean ====
section
/-! DEFINITION. The state of the core as plain data (spec/10_state.md R30 to R45), the status codes a response carries
(spec/60_exceptions.md R210), the reasons a step can stop, and the state after reset (spec/70_reset_and_hazards.md R240). -/

namespace Sys2Proof.Machine

/-- MODE of a context (10_state R32, R33): 0, 1 and 2; the value 3 is never held. -/
inductive Mode where
  /-- 0: no object in the context slot. -/
  | unconfigured
  /-- 1: absorbing input. -/
  | absorbing
  /-- 2: squeezing output; only an XOF variant reaches it. -/
  | squeezing
deriving DecidableEq, Repr

/-- A plane of the state: the five lanes with one y, by x (10_state R35). -/
structure Plane where
  x0 : Lane
  x1 : Lane
  x2 : Lane
  x3 : Lane
  x4 : Lane
deriving DecidableEq, Repr

/-- The 1600-bit state A[0..24], "logically a 5×5 grid": lane A[x + 5·y] is lane x of plane y (10_state R35). -/
structure Lanes where
  y0 : Plane
  y1 : Plane
  y2 : Plane
  y3 : Plane
  y4 : Plane
deriving DecidableEq, Repr

/-- The plane of five zero lanes. -/
def Plane.zero : Plane := ⟨0, 0, 0, 0, 0⟩

/-- The all-zero state. -/
def Lanes.zero : Lanes := ⟨.zero, .zero, .zero, .zero, .zero⟩

/-- A context CTX[k]: the hardware form of one hash object (10_state R32). -/
structure Context where
  /-- MODE. -/
  mode : Mode
  /-- VAR, the variant id. -/
  var : VariantId
  /-- R, the rate in bytes. -/
  rate : Byte
  /-- D, the digest size in bytes, 0 = unbounded. -/
  digestSize : Byte
  /-- d, the delimited suffix. -/
  suffix : Byte
  /-- BSZ, the block size as QUERY reports it. -/
  blockSize : Byte
  /-- A[0..24]. -/
  lanes : Lanes
  /-- BUF[0..166]; the bytes at BUFLEN and above are read by no rule (R36). -/
  buf : Vector Byte Config.bufBytes
  /-- BUFLEN, the number of valid bytes in BUF. -/
  buflen : Byte
  /-- SQPOS, the squeeze cursor (R37). -/
  sqpos : Byte
deriving DecidableEq, Repr

/-- The status of a response (60_exceptions R210). Its code is `Status.code`. -/
inductive Status where
  /-- 0x00: the command completed; the output follows. -/
  | ok
  /-- 0x01: reserved opcode or forbidden field value. -/
  | illegal
  /-- 0x02: a context index not below NCTX. -/
  | badContext
  /-- 0x03: INIT with an unassigned variant id. -/
  | configError
  /-- 0x04: the context the command needs holds no object. -/
  | unconfigured
  /-- 0x05: the command is not allowed in this mode or variant. -/
  | stateError
  /-- 0x06: reserved for the host binding; the core never returns it (R215). -/
  | typeError
deriving DecidableEq, Repr

/-- A response: a status and the output bytes (30_encoding R91). -/
structure Response where
  status : Status
  output : List Byte
deriving DecidableEq, Repr

/-- The state of the core. The context array and the variant table are all the spec's state (10_state R30); the last three
fields are the model's own (log entries 1, 2, 6): the command port's two queues and the counter of free values. -/
structure State where
  /-- CTX[0..NCTX-1]: NCTX is the length (log entry 3). -/
  ctx : List Context
  /-- The read-only variant configuration table (10_state R40). -/
  table : List VariantRow
  /-- The bytes the host has sent and the core has not consumed, oldest first. -/
  input : List Byte
  /-- The responses given and not yet read by the host, oldest first. -/
  responses : List Response
  /-- How many times a free value has been drawn. -/
  draws : Nat
deriving DecidableEq, Repr

/-- Why the machine stops with a fault. It has no constructor: no frame faults, because every word decodes and every command
completes (60_exceptions R214, R224). Every error of the spec is a status in a response, a next state. -/
inductive Fault where
deriving DecidableEq, Repr

/-- Why a step has no meaning. -/
inductive Refusal where
  /-- An instruction whose arm of `exec` has no meaning yet; raised by no arm of this model. Safe: nothing can be proved of a
  run past it. -/
  | notModelled (mnemonic : String)
deriving DecidableEq, Repr

/-- The outcome of a step of this machine. -/
abbrev Result := Host.Outcome State Fault Refusal

/-- A context after reset (10_state R32, 70_reset R240): MODE = UNCONFIGURED. The spec leaves every other field unspecified; the
model names 0 (DESIGN CHOICE, log entry 5, unsafe; clearing to zero is what R241 recommends). -/
def Context.reset : Context where
  mode := .unconfigured
  var := 0
  rate := 0
  digestSize := 0
  suffix := 0
  blockSize := 0
  lanes := .zero
  buf := Vector.replicate Config.bufBytes 0
  buflen := 0
  sqpos := 0

/-- The state after reset of the machine with `nctx` contexts and the given XOF_BLOCK_SIZE (00_scope R8, 70_reset R240). -/
def State.resetWith (nctx : Nat) (x : XofBlockSize) : State where
  ctx := List.replicate nctx .reset
  table := variantTable x
  input := []
  responses := []
  draws := 0

/-- The state after reset, for the parameters `Config.nctx` and `Config.xofBlockSize` (log entries 3 and 4). -/
def State.reset : State := State.resetWith Config.nctx Config.xofBlockSize

end Sys2Proof.Machine
end

