-- ==== Sys2Proof/Machine/Flags.lean ====
section
/-! DEFINITION. The core has no flags, condition codes or predicates (spec/10_state.md R39). What a command reports is the status
byte of its response (spec/60_exceptions.md R210): this file gives the codes, and the bytes of a response frame. -/

namespace Sys2Proof.Machine

/-- The status byte (R210). -/
def Status.code : Status → Byte
  | .ok => 0x00
  | .illegal => 0x01
  | .badContext => 0x02
  | .configError => 0x03
  | .unconfigured => 0x04
  | .stateError => 0x05
  | .typeError => 0x06

/-- The response frame: one status byte, then the output bytes (30_encoding R91). -/
def Response.bytes (r : Response) : List Byte := r.status.code :: r.output

/-- The MODE value of R32 and of byte 1 of CTXINFO (10_state R43). -/
def Mode.code : Mode → Byte
  | .unconfigured => 0
  | .absorbing => 1
  | .squeezing => 2

end Sys2Proof.Machine
end

