-- ==== Sys2Proof/Machine/Operands.lean ====
section
/-! DEFINITION. The operand forms of the commands: the context a CTX or AUX field names (spec/30_encoding.md R86), the payload
(spec/00_scope.md R13), and the raw and hex forms of the output (spec/30_encoding.md R87, spec/43_engine_commands.md R173). -/

namespace Sys2Proof.Machine

/-- NCTX, the number of contexts of the machine (00_scope R8; log entry 3). -/
def State.nctx (s : State) : Nat := s.ctx.length

/-- The context CTX[c]; none where the index is not below NCTX (R86). -/
def State.context (s : State) (c : CtxIndex) : Option Context := s.ctx[c.toNat]?

/-- CTX[c] <- C; nothing where the index is not below NCTX. -/
def State.setContext (s : State) (c : CtxIndex) (C : Context) : State := { s with ctx := s.ctx.set c.toNat C }

/-- The configuration row of a variant id, none where it is unassigned (30_encoding R89). -/
def State.row (s : State) (v : VariantId) : Option VariantRow := tableRow s.table v

/-- MemRead(addr, n): n bytes of the payload from addr, for addr + n ≤ LEN (00_scope R13). -/
def memRead (payload : List Byte) (addr n : Nat) : List Byte := (payload.drop addr).take n

/-- The ASCII digit of a nibble: `0`..`9` are 0x30..0x39, `a`..`f` are 0x61..0x66 (R173). -/
def hexDigit (n : BitVec 4) : Byte := if n.toNat < 10 then BitVec.ofNat 8 (0x30 + n.toNat) else BitVec.ofNat 8 (0x57 + n.toNat)

/-- The two hex digits of a byte, high nibble first (R173). -/
def hexByte (b : Byte) : List Byte := [hexDigit (b.extractLsb' 4 4), hexDigit (b.extractLsb' 0 4)]

/-- Hex(s) (R173). -/
def hexText (s : List Byte) : List Byte := s.flatMap hexByte

/-- The output of DIGEST and SQUEEZE: the bytes, or their hex text with HEX = 1 (R87). -/
def outputForm (hex : Bool) (out : List Byte) : List Byte := if hex then hexText out else out

/-- The nibble of an ASCII hex digit of R173, none for another byte. -/
def nibbleOf (c : Byte) : Option (BitVec 4) :=
  if 0x30 ≤ c.toNat ∧ c.toNat ≤ 0x39 then some (BitVec.ofNat 4 (c.toNat - 0x30))
  else if 0x61 ≤ c.toNat ∧ c.toNat ≤ 0x66 then some (BitVec.ofNat 4 (c.toNat - 0x57))
  else none

/-- Hex decoding, the inverse of Hex (R173): none where the text is not pairs of lowercase hex digits. -/
def hexDecode : List Byte → Option (List Byte)
  | [] => some []
  | h :: l :: rest =>
    match nibbleOf h, nibbleOf l, hexDecode rest with
    | some hi, some lo, some bs => some ((hi ++ lo) :: bs)
    | _, _, _ => none
  | [_] => none

end Sys2Proof.Machine
end

