-- ==== Sys2Proof/Machine/Ops.lean ====
section
/-! DEFINITION. The shared operations of every command: answering, raising an error status, drawing a free value, and taking the
next frame off the port (spec/00_scope.md R14, spec/43_engine_commands.md R160, spec/60_exceptions.md R210 to R224). -/

namespace Sys2Proof.Machine

/-! ## Answers -/

/-- The one response of a command, put after the earlier ones (30_encoding R91). -/
def State.respond (s : State) (st : Status) (out : List Byte) : State :=
  { s with responses := s.responses ++ [⟨st, out⟩] }

/-- A command that completes: status OK and its output, which is what its MemWrite(0, len(out), out) leaves (43_engine R160, 00_scope
R13). -/
def complete (out : List Byte) (s : State) : Result := .next (s.respond .ok out)

/-- raise <Status>: the command ends at once with that status and an empty output, and no context is written (00_scope R14,
60_exceptions R211, R219). There is no trap, vector or handler, and no return: the next command is accepted as usual (R220). -/
def raise (st : Status) (s : State) : Result := .next (s.respond st [])

/-! ## Free values (log entry 6) -/

/-- The free values of the current draw are used up: the next draw has fresh ones. -/
def State.drawn (s : State) : State := { s with draws := s.draws + 1 }

/-- The free byte a field that "becomes unspecified" takes at a draw. -/
def freeSqpos (draw : Nat) : Byte := Config.freeByte draw 0

/-- Five free lanes of a draw. -/
def freePlane (draw slot : Nat) : Plane :=
  ⟨Config.freeLane draw slot, Config.freeLane draw (slot + 1), Config.freeLane draw (slot + 2), Config.freeLane draw (slot + 3),
    Config.freeLane draw (slot + 4)⟩

/-- A context slot with MODE = UNCONFIGURED and a free value in every other field (43_engine R167). -/
def Context.freed (draw : Nat) : Context where
  mode := .unconfigured
  var := (Config.freeByte draw 1).setWidth 4
  rate := Config.freeByte draw 2
  digestSize := Config.freeByte draw 3
  suffix := Config.freeByte draw 4
  blockSize := Config.freeByte draw 5
  lanes := ⟨freePlane draw 0, freePlane draw 5, freePlane draw 10, freePlane draw 15, freePlane draw 20⟩
  buf := Vector.ofFn fun j => Config.freeByte draw (7 + j.val)
  buflen := Config.freeByte draw 6
  sqpos := freeSqpos draw

/-! ## The command port -/

/-- What stands at the head of the bytes the host has sent (30_encoding R95). -/
def State.fetch (s : State) : Decoded := decode s.input

/-- The state with the frame at the head consumed. -/
def State.consumed (s : State) (rest : List Byte) : State := { s with input := rest }

/-- A frame whose word is ILLEGAL: the answer is ILLEGAL, no context changes, and the frame is consumed (43_engine R169,
30_encoding R83). -/
def rejectFrame (rest : List Byte) (s : State) : Result := raise .illegal (s.consumed rest)

/-- No whole frame has arrived: the core waits, with no response and no change (70_reset R247 H2, 93 U10). DEDUCED, log entry 8: a
waiting core is a step to the same state, not a stop, since "stuck, not final" is what the spec calls it. -/
def await (s : State) : Result := .next s

end Sys2Proof.Machine
end

