-- ==== Sys2Proof/Machine/Permutation.lean ====
section
/-! DEFINITION. The sub-block `keccak_f1600_permutation`: the five step mappings, the round and the 24-round permutation
(spec/40_permutation.md R110 to R122), the views of the state by lane (spec/10_state.md R35), and the generating rules of the two
constant tables (R117, R120). The formulas and constants are the spec's, which marks them as supplied from general knowledge
(93 G1 to G5). -/

namespace Sys2Proof.Machine

/-- ROTL64(a, n) for 0 ≤ n ≤ 63 (00_scope R11); for n = 0 the right shift by 64 gives 0. -/
def rotl64 (a : Lane) (n : Nat) : Lane := a <<< n ||| a >>> (64 - n)

/-! ## Planes -/

/-- Lane-wise exclusive or of two planes. -/
def Plane.xor (p q : Plane) : Plane :=
  ⟨p.x0 ^^^ q.x0, p.x1 ^^^ q.x1, p.x2 ^^^ q.x2, p.x3 ^^^ q.x3, p.x4 ^^^ q.x4⟩

/-- The lanes of a plane rotated by the given offsets. -/
def Plane.rotl (p : Plane) (r0 r1 r2 r3 r4 : Nat) : Plane :=
  ⟨rotl64 p.x0 r0, rotl64 p.x1 r1, rotl64 p.x2 r2, rotl64 p.x3 r3, rotl64 p.x4 r4⟩

/-- The lanes of a plane, x = 0 first. -/
def Plane.toList (p : Plane) : List Lane := [p.x0, p.x1, p.x2, p.x3, p.x4]

/-- A function applied to each plane of the state. -/
def Lanes.mapPlanes (f : Plane → Plane) (A : Lanes) : Lanes := ⟨f A.y0, f A.y1, f A.y2, f A.y3, f A.y4⟩

/-- The lanes A[0], …, A[24] in order of index i = x + 5·y (10_state R35). -/
def Lanes.toList (A : Lanes) : List Lane :=
  A.y0.toList ++ A.y1.toList ++ A.y2.toList ++ A.y3.toList ++ A.y4.toList

/-- A[i]; 0 for an index past the 25 lanes. -/
def Lanes.lane (A : Lanes) (i : Nat) : Lane := A.toList.getD i 0

/-- The state with the given 25 lanes, A[0] first; the zero state for a list of another length (no rule makes one). -/
def Lanes.ofList : List Lane → Lanes
  | [a0, a1, a2, a3, a4, a5, a6, a7, a8, a9, a10, a11, a12, a13, a14, a15, a16, a17, a18, a19, a20, a21, a22, a23, a24] =>
    ⟨⟨a0, a1, a2, a3, a4⟩, ⟨a5, a6, a7, a8, a9⟩, ⟨a10, a11, a12, a13, a14⟩, ⟨a15, a16, a17, a18, a19⟩,
      ⟨a20, a21, a22, a23, a24⟩⟩
  | _ => .zero

/-! ## The step mappings -/

/-- Cp of R112: the parity of each column. -/
def columnParity (A : Lanes) : Plane := (((A.y0.xor A.y1).xor A.y2).xor A.y3).xor A.y4

/-- Dt of R112: Cp[x + 4] ^ ROTL64(Cp[x + 1], 1). -/
def thetaEffect (c : Plane) : Plane :=
  ⟨c.x4 ^^^ rotl64 c.x1 1, c.x0 ^^^ rotl64 c.x2 1, c.x1 ^^^ rotl64 c.x3 1, c.x2 ^^^ rotl64 c.x4 1, c.x3 ^^^ rotl64 c.x0 1⟩

/-- θ, the column-parity diffusion step (R112). -/
def theta (A : Lanes) : Lanes := A.mapPlanes fun p => p.xor (thetaEffect (columnParity A))

/-- ρ, the per-lane bit rotation, with the offsets r[x, y] of R113 by row y. -/
def rho (A : Lanes) : Lanes :=
  ⟨A.y0.rotl 0 1 62 28 27,
   A.y1.rotl 36 44 6 55 20,
   A.y2.rotl 3 10 43 25 39,
   A.y3.rotl 41 45 15 21 8,
   A.y4.rotl 18 2 61 56 14⟩

/-- π, the lane-position permutation (R114). The source indices by destination: 0, 6, 12, 18, 24; 3, 9, 10, 16, 22;
1, 7, 13, 19, 20; 4, 5, 11, 17, 23; 2, 8, 14, 15, 21. -/
def pi (A : Lanes) : Lanes :=
  ⟨⟨A.y0.x0, A.y1.x1, A.y2.x2, A.y3.x3, A.y4.x4⟩,
   ⟨A.y0.x3, A.y1.x4, A.y2.x0, A.y3.x1, A.y4.x2⟩,
   ⟨A.y0.x1, A.y1.x2, A.y2.x3, A.y3.x4, A.y4.x0⟩,
   ⟨A.y0.x4, A.y1.x0, A.y2.x1, A.y3.x2, A.y4.x3⟩,
   ⟨A.y0.x2, A.y1.x3, A.y2.x4, A.y3.x0, A.y4.x1⟩⟩

/-- χ on one row (R115); every read is of the input. -/
def chiRow (p : Plane) : Plane :=
  ⟨p.x0 ^^^ (~~~p.x1 &&& p.x2), p.x1 ^^^ (~~~p.x2 &&& p.x3), p.x2 ^^^ (~~~p.x3 &&& p.x4), p.x3 ^^^ (~~~p.x4 &&& p.x0),
    p.x4 ^^^ (~~~p.x0 &&& p.x1)⟩

/-- χ, the nonlinear row-wise combination step (R115). -/
def chi (A : Lanes) : Lanes := A.mapPlanes chiRow

/-- ι with a round constant: exclusive or into lane 0 only (R116). -/
def iota (A : Lanes) (rc : Lane) : Lanes := { A with y0 := { A.y0 with x0 := A.y0.x0 ^^^ rc } }

/-- The round constants RC[0..23] (R116). -/
def roundConstants : List Lane :=
  [ 0x0000000000000001#64, 0x0000000000008082#64, 0x800000000000808A#64, 0x8000000080008000#64,
    0x000000000000808B#64, 0x0000000080000001#64, 0x8000000080008081#64, 0x8000000000008009#64,
    0x000000000000008A#64, 0x0000000000000088#64, 0x0000000080008009#64, 0x000000008000000A#64,
    0x000000008000808B#64, 0x800000000000008B#64, 0x8000000000008089#64, 0x8000000000008003#64,
    0x8000000000008002#64, 0x8000000000000080#64, 0x000000000000800A#64, 0x800000008000000A#64,
    0x8000000080008081#64, 0x8000000000008080#64, 0x0000000080000001#64, 0x8000000080008008#64 ]

/-- RC[ir]; 0 for an index past the 24 rounds. -/
def roundConstant (ir : Nat) : Lane := roundConstants.getD ir 0

/-- A round with the given round constant: θ, ρ, π, χ, ι in this order (R111). -/
def roundWith (A : Lanes) (rc : Lane) : Lanes := iota (chi (pi (rho (theta A)))) rc

/-- Rnd(A, ir) (R111). -/
def round (A : Lanes) (ir : Nat) : Lanes := roundWith A (roundConstant ir)

/-- Keccak_f: the 24 rounds in increasing order of ir (R118). -/
def keccakF (A : Lanes) : Lanes := (List.range Config.rounds).foldl round A

/-! ## The generating rules of the tables -/

/-- One step of the LFSR of R117 on its register R[0..7], R[0] first. -/
def lfsrStep : List Bool → List Bool
  | [r0, r1, r2, r3, r4, r5, r6, r7] =>
    [r7, r0, r1, r2, r3 != r7, r4 != r7, r5 != r7, r6]
  | r => r

/-- The register after n steps from 1000 0000 (R117). -/
def lfsr : Nat → List Bool
  | 0 => [true, false, false, false, false, false, false, false]
  | n + 1 => lfsrStep (lfsr n)

/-- rc(t) (R117). For t mod 255 = 0 the register is the initial one, whose R[0] is 1. -/
def rcBit (t : Nat) : Bool := (lfsr (t % 255)).headD false

/-- RC[ir] by its generating rule (R117): bit 2^j - 1 is rc(j + 7·ir) for j = 0..6. -/
def generatedRoundConstant (ir : Nat) : Lane :=
  (List.range 7).foldl (fun rc j => if rcBit (j + 7 * ir) then rc ||| 1#64 <<< (2 ^ j - 1) else rc) 0

/-- The rotation offsets by lane index i = x + 5·y (R113). -/
def rotationOffsets : List Nat :=
  [0, 1, 62, 28, 27, 36, 44, 6, 55, 20, 3, 10, 43, 25, 39, 41, 45, 15, 21, 8, 18, 2, 61, 56, 14]

/-- The walk (x, y) of R120 after t moves from (1, 0). -/
def rhoWalk : Nat → Nat × Nat
  | 0 => (1, 0)
  | t + 1 => ((rhoWalk t).2, (2 * (rhoWalk t).1 + 3 * (rhoWalk t).2) % 5)

/-- The rotation offsets by their generating rule (R120): the offset of lane 0 is 0, and move t sets the offset of its lane to
(t + 1)(t + 2)/2 mod 64. -/
def generatedOffsets : List Nat :=
  (List.range 24).foldl (fun rs t => rs.set ((rhoWalk t).1 + 5 * (rhoWalk t).2) ((t + 1) * (t + 2) / 2 % 64))
    (List.replicate 25 0)

end Sys2Proof.Machine
end

