-- ==== Sys2Proof/Machine/Sponge.lean ====
section
/-! DEFINITION. The sub-block `keccak_sponge_absorb_squeeze_controller` (spec/41_sponge.md R130 to R137) over the byte view of the
state (spec/20_memory.md R61). -/

namespace Sys2Proof.Machine

/-! ## The byte view -/

/-- The eight bytes of a lane, least significant byte first (20_memory R61). -/
def laneBytes (a : Lane) : List Byte :=
  [a.extractLsb' 0 8, a.extractLsb' 8 8, a.extractLsb' 16 8, a.extractLsb' 24 8,
   a.extractLsb' 32 8, a.extractLsb' 40 8, a.extractLsb' 48 8, a.extractLsb' 56 8]

/-- StateBytes(A), the 200-byte view (20_memory R61). -/
def stateBytes (A : Lanes) : List Byte := A.toList.flatMap laneBytes

/-- The lanes whose bytes, eight a lane, are the given ones; a shorter tail makes no lane. -/
def lanesOfBytes : List Byte → List Lane
  | b0 :: b1 :: b2 :: b3 :: b4 :: b5 :: b6 :: b7 :: rest =>
    (b7 ++ b6 ++ b5 ++ b4 ++ b3 ++ b2 ++ b1 ++ b0 : BitVec 64) :: lanesOfBytes rest
  | _ => []

/-- "the lanes A' with StateBytes(A') = T" (R131), for a T of 200 bytes. -/
def ofStateBytes (T : List Byte) : Lanes := Lanes.ofList (lanesOfBytes T)

/-! ## Absorbing -/

/-- T with the first len(s) bytes exclusive-ored by s (R131). -/
def xorBytes : List Byte → List Byte → List Byte
  | t :: T, s :: ss => (t ^^^ s) :: xorBytes T ss
  | T, [] => T
  | [], _ :: _ => []

/-- XorIn(A, s), for len(s) ≤ 200 (R131). -/
def xorIn (A : Lanes) (s : List Byte) : Lanes := ofStateBytes (xorBytes (stateBytes A) s)

/-- absorb_block(A, block) (R132). -/
def absorbBlock (A : Lanes) (block : List Byte) : Lanes := keccakF (xorIn A block)

/-- The capacity in bytes of a rate of R bytes, 200 - R (R130, 10_state R34). -/
def capacityBytes (R : Nat) : Nat := Config.stateBytes - R

/-- "while len(M) >= C.R" of UPDATE (43_engine R163): absorb the full blocks of M, at most `fuel` of them, and give the state and
what is left of M. For R ≥ 1 a fuel of len(M) never runs out. -/
def absorbFull (R : Nat) : Nat → Lanes → List Byte → Lanes × List Byte
  | 0, A, M => (A, M)
  | fuel + 1, A, M =>
    if R ≤ M.length then absorbFull R fuel (absorbBlock A (M.take R)) (M.drop R) else (A, M)

/-! ## Squeezing -/

/-- squeeze_block(A): the first R bytes of the state, which it leaves unchanged (R133). -/
def squeezeBlock (R : Nat) (A : Lanes) : List Byte := (stateBytes A).take R

/-- squeeze_more(A): permute first, then the first R bytes, with the new state (R134). -/
def squeezeMore (R : Nat) (A : Lanes) : Lanes × List Byte := (keccakF A, squeezeBlock R (keccakF A))

/-- "while len(out) < D" of DigestOut (R135), at most `fuel` times. -/
def digestMore (R D : Nat) : Nat → Lanes → List Byte → List Byte
  | 0, _, out => out
  | fuel + 1, A, out =>
    if out.length < D then digestMore R D fuel (squeezeMore R A).1 (out ++ (squeezeMore R A).2) else out

/-- DigestOut(A, D) (R135). For R ≥ 1 a fuel of D never runs out. -/
def digestOut (R D : Nat) (A : Lanes) : List Byte := (digestMore R D D A (squeezeBlock R A)).take D

/-- What SqueezeOut gives: the output, and the state and cursor it leaves. -/
structure Squeezed where
  out : List Byte
  lanes : Lanes
  pos : Nat
deriving DecidableEq, Repr

/-- "while n > 0" of SqueezeOut (R136), at most `fuel` times: the permutation runs only when another byte is wanted and the block
is used up. -/
def squeezeLoop (R : Nat) : Nat → Nat → Lanes → Nat → Squeezed
  | 0, _, A, pos => ⟨[], A, pos⟩
  | fuel + 1, n, A, pos =>
    if n = 0 then ⟨[], A, pos⟩
    else
      let A' := if pos = R then (squeezeMore R A).1 else A
      let pos' := if pos = R then 0 else pos
      let k := min n (R - pos')
      let more := squeezeLoop R fuel (n - k) A' (pos' + k)
      ⟨((stateBytes A').drop pos').take k ++ more.out, more.lanes, more.pos⟩

/-- SqueezeOut(C, n) on the state and cursor of a context (R136). For R ≥ 1 and SQPOS ≤ R a fuel of n never runs out. -/
def squeezeOut (R n : Nat) (A : Lanes) (pos : Nat) : Squeezed := squeezeLoop R n n A pos

end Sys2Proof.Machine
end

