-- ==== Sys2Proof/Machine/Padding.lean ====
section
/-! DEFINITION. The sub-block `sha3_padding_engine`: the suffix, pad10*1 and the final absorb (spec/42_padding.md R150 to R156). -/

namespace Sys2Proof.Machine

/-- zeros(n) (00_scope R10). -/
def zeros (n : Nat) : List Byte := List.replicate n 0

/-- PadBlocks(M, R, d), for len(M) ≤ R - 1 (R150); the case of two blocks is R151. -/
def padBlocks (M : List Byte) (R : Nat) (d : Byte) : List (List Byte) :=
  let L := M.length
  let P := (M ++ zeros (R - L)).modify L (· ^^^ d)
  if 0x80 ≤ d.toNat ∧ L = R - 1 then [P, zeros (R - 1) ++ [0x80]]
  else [P.modify (R - 1) (· ^^^ 0x80)]

/-- Finalize(A, M, R, d): absorb the padded blocks in order (R152). -/
def finalize (A : Lanes) (M : List Byte) (R : Nat) (d : Byte) : Lanes := (padBlocks M R d).foldl absorbBlock A

/-! ## The bit form -/

/-- The bits of a byte, least significant first (R153). -/
def byteBits (b : Byte) : List Bool :=
  [b.getLsbD 0, b.getLsbD 1, b.getLsbD 2, b.getLsbD 3, b.getLsbD 4, b.getLsbD 5, b.getLsbD 6, b.getLsbD 7]

/-- A byte string as a bit string: bit 8·k + j is bit j of byte k (R153). -/
def bitString (M : List Byte) : List Bool := M.flatMap byteBits

/-- The number with the given bits, least significant first. -/
def bitsNat : List Bool → Nat
  | [] => 0
  | b :: bs => b.toNat + 2 * bitsNat bs

/-- The delimited suffix byte of a suffix of at most 7 bits: its bits, then the first 1 of the padding (R154). -/
def delimitedSuffix (s : List Bool) : Byte := BitVec.ofNat 8 (bitsNat s + 2 ^ s.length)

/-- The number of 0 bits of the padding of a stream of n bits before it: the least j that makes n + 1 + j + 1 a multiple of the
rate of 8·R bits (R153). -/
def padZeros (n R : Nat) : Nat := (8 * R - (n + 2) % (8 * R)) % (8 * R)

/-- The padded stream M || s || 1 || 0^j || 1 (R153). -/
def paddedStream (M : List Byte) (s : List Bool) (R : Nat) : List Bool :=
  bitString M ++ s ++ [true] ++ List.replicate (padZeros (8 * M.length + s.length) R) false ++ [true]

end Sys2Proof.Machine
end

