-- ==== Sys2Proof/Machine/Engine.lean ====
section
/-! DEFINITION. The sub-block `keccak_incremental_buffer_fsm`: what the commands do to ONE context
(spec/43_engine_commands.md R162 to R168, spec/10_state.md R36, R37, R43). -/

namespace Sys2Proof.Machine

/-- BUF[0..BUFLEN), the bytes received and not yet absorbed, oldest first (10_state R36). -/
def Context.pending (C : Context) : List Byte := C.buf.toList.take C.buflen.toNat

/-- BUF[0..len(M)) <- M: the other bytes stay as they are (log entry 9); bytes past the buffer's 167 are dropped, which no rule
reaches (10_state R36, log entry 11). -/
def writePrefix (buf : Vector Byte Config.bufBytes) (M : List Byte) : Vector Byte Config.bufBytes :=
  ⟨(M.take Config.bufBytes ++ buf.toList.drop M.length).toArray, by simp; omega⟩

/-- INIT's writes: the row's configuration, lanes zero, BUFLEN 0, MODE ABSORBING; SQPOS becomes the free byte given (R162). -/
def Context.configure (C : Context) (row : VariantRow) (sqpos : Byte) : Context :=
  { C with
    mode := .absorbing
    var := row.id
    rate := row.rate
    digestSize := row.digestSize
    suffix := row.suffix
    blockSize := row.blockSize
    lanes := .zero
    buflen := 0
    sqpos := sqpos }

/-- UPDATE's writes: M is the buffered bytes and the payload; its full blocks are absorbed, and the rest is buffered (R163). -/
def Context.absorb (C : Context) (payload : List Byte) : Context :=
  let M := C.pending ++ payload
  let r := absorbFull C.rate.toNat M.length C.lanes M
  { C with lanes := r.1, buf := writePrefix C.buf r.2, buflen := BitVec.ofNat 8 r.2.length }

/-- Finalize on the context's state and buffered bytes; the context itself is not changed (R164, R165). -/
def Context.finalized (C : Context) : Lanes := finalize C.lanes C.pending C.rate.toNat C.suffix

/-- The digest of everything absorbed so far, on a scratch copy (R164, 10_state R45). -/
def Context.digest (C : Context) : List Byte := digestOut C.rate.toNat C.digestSize.toNat C.finalized

/-- The first squeeze: pad and absorb the final block or blocks, and enter SQUEEZING (R165). -/
def Context.startSqueezing (C : Context) : Context :=
  { C with lanes := C.finalized, buflen := 0, sqpos := 0, mode := .squeezing }

/-- The context SQUEEZE draws output from: finalized first if it is ABSORBING (R165). -/
def Context.readyToSqueeze (C : Context) : Context :=
  match C.mode with
  | .absorbing => C.startSqueezing
  | .squeezing => C
  | .unconfigured => C

/-- SqueezeOut on a context in SQUEEZING (41_sponge R136). -/
def Context.squeezed (C : Context) (n : Nat) : Squeezed := squeezeOut C.rate.toNat n C.lanes C.sqpos.toNat

/-- The context after SqueezeOut: A and SQPOS (41_sponge R136). -/
def Context.afterSqueeze (C : Context) (n : Nat) : Context :=
  { C with lanes := (C.squeezed n).lanes, sqpos := BitVec.ofNat 8 (C.squeezed n).pos }

/-- COPY's writes to the destination: every field of the source, and the source's valid buffer bytes (R166). -/
def Context.copyFrom (C S : Context) : Context :=
  { S with buf := writePrefix C.buf S.pending }

/-- CTXINFO (10_state R43, R168). -/
def Context.info (C : Context) : List Byte :=
  match C.mode with
  | .unconfigured => [0xFF, 0, 0, 0, 0, 0, 0, 0]
  | .absorbing | .squeezing =>
    [C.var.setWidth 8, C.mode.code, C.rate, C.digestSize, C.blockSize, C.suffix,
      BitVec.ofNat 8 (capacityBytes C.rate.toNat), 0]

end Sys2Proof.Machine
end

