-- ==== Sys2Proof/Machine/Commands.lean ====
section
/-! DEFINITION. The meanings of the seven commands (spec/43_engine_commands.md R162 to R168). Each makes its checks in the order of
spec/60_exceptions.md R212 and raises the first that fails; ILLEGAL comes before all of them, in the decoder. -/

namespace Sys2Proof.Machine

/-- INIT (R162): BAD_CONTEXT, CONFIG_ERROR; else configure and clear the context, configured or not. -/
def execInit (c : CtxIndex) (v : VariantId) (s : State) : Result :=
  match s.context c with
  | none => raise .badContext s
  | some C =>
    match s.row v with
    | none => raise .configError s
    | some row => complete [] (s.setContext c (C.configure row (freeSqpos s.draws))).drawn

/-- UPDATE (R163): BAD_CONTEXT, UNCONFIGURED, STATE_ERROR (SQUEEZING); else append MemRead(0, LEN) and absorb every full block. -/
def execUpdate (c : CtxIndex) (len : Word) (payload : List Byte) (s : State) : Result :=
  match s.context c with
  | none => raise .badContext s
  | some C =>
    match C.mode with
    | .unconfigured => raise .unconfigured s
    | .squeezing => raise .stateError s
    | .absorbing => complete [] (s.setContext c (C.absorb (memRead payload 0 len.toNat)))

/-- DIGEST (R164): BAD_CONTEXT, UNCONFIGURED, STATE_ERROR (an XOF variant, D = 0); else output the digest, writing no context. -/
def execDigest (c : CtxIndex) (hex : Bool) (s : State) : Result :=
  match s.context c with
  | none => raise .badContext s
  | some C =>
    match C.mode with
    | .unconfigured => raise .unconfigured s
    | .absorbing | .squeezing =>
      if C.digestSize = 0 then raise .stateError s
      else complete (outputForm hex C.digest) s

/-- SQUEEZE (R165): BAD_CONTEXT, UNCONFIGURED, STATE_ERROR (a fixed-output variant, D ≠ 0); else finalize on the first call, and
output the next N bytes. -/
def execSqueeze (c : CtxIndex) (hex : Bool) (n : Word) (s : State) : Result :=
  match s.context c with
  | none => raise .badContext s
  | some C =>
    match C.mode with
    | .unconfigured => raise .unconfigured s
    | .absorbing | .squeezing =>
      if C.digestSize ≠ 0 then raise .stateError s
      else
        complete (outputForm hex (C.readyToSqueeze.squeezed n.toNat).out)
          (s.setContext c (C.readyToSqueeze.afterSqueeze n.toNat))

/-- COPY (R166): BAD_CONTEXT (either index), UNCONFIGURED (the source); else the destination becomes an independent copy, and a
copy onto itself changes nothing. -/
def execCopy (dst src : CtxIndex) (s : State) : Result :=
  match s.context dst, s.context src with
  | some C, some S =>
    match S.mode with
    | .unconfigured => raise .unconfigured s
    | .absorbing | .squeezing =>
      if dst = src then complete [] s
      else complete [] (s.setContext dst (C.copyFrom S))
  | _, _ => raise .badContext s

/-- FREE (R167): BAD_CONTEXT; else MODE becomes UNCONFIGURED and every other field unspecified. On an UNCONFIGURED context it changes
nothing (log entry 10). -/
def execFree (c : CtxIndex) (s : State) : Result :=
  match s.context c with
  | none => raise .badContext s
  | some C =>
    match C.mode with
    | .unconfigured => complete [] s
    | .absorbing | .squeezing => complete [] (s.setContext c (Context.freed s.draws)).drawn

/-- QUERY (R168): BAD_CONTEXT; else output CTXINFO, writing no state. -/
def execQuery (c : CtxIndex) (s : State) : Result :=
  match s.context c with
  | none => raise .badContext s
  | some C => complete C.info s

end Sys2Proof.Machine
end

