-- ==== Sys2Proof/Machine/Dispatch.lean ====
section
/-! DEFINITION. The one match from a command to its meaning. -/

namespace Sys2Proof.Machine

def exec (i : Instr) (s : State) : Host.Outcome State Fault Refusal :=
  match i with
  | .init c v => Sys2Proof.Machine.execInit c v s
  | .update c len payload => Sys2Proof.Machine.execUpdate c len payload s
  | .digest c hex => Sys2Proof.Machine.execDigest c hex s
  | .squeeze c hex n => Sys2Proof.Machine.execSqueeze c hex n s
  | .copy dst src => Sys2Proof.Machine.execCopy dst src s
  | .free c => Sys2Proof.Machine.execFree c s
  | .query c => Sys2Proof.Machine.execQuery c s

end Sys2Proof.Machine
end

