-- ==== Sys2Proof/Machine/Step.lean ====
section
/-! DEFINITION. One step of the core (spec/43_engine_commands.md R160): take the next frame the host has sent, and run its command. -/

namespace Sys2Proof.Machine

/-- One step: the command at the head of the input, run on the state with its frame consumed; an ILLEGAL frame is answered; without a
whole frame the core waits. -/
def step (s : State) : Host.Outcome State Fault Refusal :=
  match s.fetch with
  | .command i rest => exec i (s.consumed rest)
  | .illegal rest => rejectFrame rest s
  | .incomplete => await s

/-- `s` with the frame whose bits are `w` below bit `nbits`, and 0 above, standing at the head of the input: the host has sent that
frame first (log entry 1). -/
def State.withFetchWord (s : State) (nbits w : Nat) : State := { s with input := tableBytes nbits w ++ s.input }

end Sys2Proof.Machine
end

