-- ==== Sys2Proof/Machine/Port.lean ====
section
/-! DEFINITION. What the host can do to the core between steps (spec/70_reset_and_hazards.md R240, R244, R247): send bytes, read the
oldest response, reset. None of these is a step of the core. -/

namespace Sys2Proof.Machine

/-- The host sends bytes: they wait after those already sent (R247 H1, H2). -/
def State.send (s : State) (bs : List Byte) : State := { s with input := s.input ++ bs }

/-- The host reads the oldest response, which the core then no longer holds (R247 H4); none where no response waits. -/
def State.readResponse (s : State) : Option (Response × State) :=
  match s.responses with
  | [] => none
  | r :: rest => some (r, { s with responses := rest })

/-- A reset of the running machine: every context at its reset column, the table unchanged (R240). A frame sent and not answered is
abandoned, with no response (R244; log entry 12). -/
def State.hardReset (s : State) : State :=
  { s with ctx := s.ctx.map fun _ => Context.reset, input := [] }

/-- The frames of a list of commands, in order (R250). -/
def frames (is : List Instr) : List Byte := is.flatMap encode

/-- What a list of commands does, one after another, from a state: each is one atomic step (20_memory R68). -/
def execAll : List Instr → State → Result
  | [], s => .next s
  | i :: is, s =>
    match exec i s with
    | .next t => execAll is t
    | .fault r => .fault r
    | .refused r => .refused r

end Sys2Proof.Machine
end

