-- ==== Sys2Proof/Machine/Assembly.lean ====
section
/-! DEFINITION. The assembler text of a command and the pseudo-commands (spec/30_encoding.md R92, R94). -/

namespace Sys2Proof.Machine

/-- A byte of a byte string as two hex digits, high nibble first (R92). DESIGN CHOICE, log entry 17: the digits are written in lower
case, as `Hex` writes them; R92 says "hex" only, and 95_test_vectors.md writes "CC" and "41FB". -/
def asmByte (b : Byte) : List Char := (hexByte b).map fun c => Char.ofNat c.toNat

/-- A context `c0` to `c15` (R92). -/
def asmContext (c : CtxIndex) : String := "c" ++ toString c.toNat

/-- `.HEX` after a mnemonic sets HEX = 1 (R92). -/
def asmHex (hex : Bool) : String := if hex then ".HEX" else ""

/-- The text of a command (R92); none for an INIT whose variant id has no name. -/
def assembly : Instr → Option String
  | .init c v => (variantName v).map fun name => "INIT " ++ asmContext c ++ ", " ++ name
  | .update c _ payload => some ("UPDATE " ++ asmContext c ++ ", \"" ++ String.ofList (payload.flatMap asmByte) ++ "\"")
  | .digest c hex => some ("DIGEST" ++ asmHex hex ++ " " ++ asmContext c)
  | .squeeze c hex n => some ("SQUEEZE" ++ asmHex hex ++ " " ++ asmContext c ++ ", " ++ toString n.toNat)
  | .copy dst src => some ("COPY " ++ asmContext dst ++ ", " ++ asmContext src)
  | .free c => some ("FREE " ++ asmContext c)
  | .query c => some ("QUERY " ++ asmContext c)

/-- The pseudo-commands (R94). -/
inductive Pseudo where
  /-- `NEW cK, <variant>, "<hex>"`; the data may be absent. -/
  | new (c : CtxIndex) (v : VariantId) (data : Option (List Byte))
  /-- `HEXDIGEST cK`. -/
  | hexdigest (c : CtxIndex)
  /-- `SQUEEZE cK, N, as_hex`. -/
  | squeeze (c : CtxIndex) (n : Word) (asHex : Bool)
deriving DecidableEq, Repr

/-- The UPDATE of a payload: LEN is its length (R92), for a payload that one UPDATE can carry (R82). -/
def updateWith (c : CtxIndex) (payload : List Byte) : Instr := .update c (BitVec.ofNat 32 payload.length) payload

/-- Data in payloads that one UPDATE each can carry: the data itself up to LEN's largest value, and longer data in pieces of that
length, the last one the remainder (R82: longer lengths "are reached by issuing several commands"). Where the cuts stand is a DESIGN
CHOICE, log entry 16. The first argument bounds the recursion: the length of the data is always enough. -/
def payloadPieces : Nat → List Byte → List (List Byte)
  | 0, bytes => [bytes]
  | fuel + 1, bytes =>
    if bytes.length ≤ Config.lenMax then [bytes]
    else bytes.take Config.lenMax :: payloadPieces fuel (bytes.drop Config.lenMax)

/-- The commands a pseudo-command stands for (R94). NEW with more data than one UPDATE can carry is INIT and several UPDATEs (DESIGN
CHOICE, log entry 16). A host that sees the INIT of a NEW fail does not send the UPDATE. -/
def expandPseudo : Pseudo → List Instr
  | .new c v none => [.init c v]
  | .new c v (some bytes) => .init c v :: (payloadPieces bytes.length bytes).map (updateWith c)
  | .hexdigest c => [.digest c true]
  | .squeeze c n asHex => [.squeeze c asHex n]

end Sys2Proof.Machine
end

