-- ==== Sys2Proof/Machine/SingleShot.lean ====
section
/-! DEFINITION. The single-shot functions the laws of the commands are stated against (spec/43_engine_commands.md R170). No step uses
them. -/

namespace Sys2Proof.Machine

/-- A state after absorb_block of the blocks M[jR..(j+1)R) for j < q, in order (R170). -/
def absorbBlocks (R q : Nat) (A : Lanes) (M : List Byte) : Lanes :=
  (List.range q).foldl (fun A j => absorbBlock A ((M.drop (j * R)).take R)) A

/-- A_F of R170: the all-zero state after the ⌊len(M)/R⌋ full blocks of M and the final absorb of what is left. -/
def finalState (R : Nat) (d : Byte) (M : List Byte) : Lanes :=
  finalize (absorbBlocks R (M.length / R) .zero M) (M.drop (M.length / R * R)) R d

/-- H(M) for a fixed row (R170). -/
def hashOf (row : VariantRow) (M : List Byte) : List Byte :=
  digestOut row.rate.toNat row.digestSize.toNat (finalState row.rate.toNat row.suffix M)

/-- Keccak_f applied t times (R170). -/
def keccakPower : Nat → Lanes → Lanes
  | 0, A => A
  | t + 1, A => keccakF (keccakPower t A)

/-- The first n bytes of the stream of blocks StateBytes(Keccak_f^t(A))[0..R) for t = 0, 1, 2, … (R170), for R ≥ 1. -/
def streamPrefix (R : Nat) (A : Lanes) (n : Nat) : List Byte :=
  ((List.range (n / R + 1)).flatMap fun t => squeezeBlock R (keccakPower t A)).take n

/-- XOF(M)[0..n) for an XOF row (R170). -/
def xofOutput (row : VariantRow) (M : List Byte) (n : Nat) : List Byte :=
  streamPrefix row.rate.toNat (finalState row.rate.toNat row.suffix M) n

end Sys2Proof.Machine
end

