-- ==== Sys2Proof/Safety.lean ====
section
/-! DEFINITION. What claims about the core are stated in: the invariant of its states (spec/10_state.md R38), when two states cannot be
told apart (R42), and the status and output length a command must answer with (spec/60_exceptions.md R212, R213;
spec/30_encoding.md R91), written apart from the meanings. -/

namespace Sys2Proof.Safety

open Sys2Proof.Machine

/-! ## Well-formed states -/

/-- The configuration fields of a context as a row of the table (10_state R34). -/
def configRow (C : Context) : VariantRow := ⟨C.var, C.rate, C.digestSize, C.suffix, C.blockSize⟩

/-- VAR names a row of the table, and R, D, d and BSZ are that row's (10_state R34, R38). -/
def hasRow (table : List VariantRow) (C : Context) : Bool := tableRow table C.var == some (configRow C)

/-- The invariant of a context by its mode (10_state R38). -/
def contextWf (table : List VariantRow) (C : Context) : Bool :=
  match C.mode with
  | .unconfigured => true
  | .absorbing => hasRow table C && decide (C.buflen.toNat < C.rate.toNat)
  | .squeezing =>
    hasRow table C && C.digestSize == 0 && C.buflen == 0 && decide (C.sqpos.toNat ≤ C.rate.toNat)

/-- The table is the fixed one, for one of the two values of XOF_BLOCK_SIZE (43_engine R161, 70_reset R242). -/
abbrev tableWf (s : State) : Prop := s.table = variantTable .na ∨ s.table = variantTable .rate

/-- The invariant of the machine: 1 ≤ NCTX ≤ 16, the fixed table, and every context well-formed. -/
abbrev StateWf (s : State) : Prop :=
  (1 ≤ s.nctx ∧ s.nctx ≤ Config.nctxMax) ∧ tableWf s ∧ ∀ C ∈ s.ctx, contextWf s.table C = true

/-- Every response given is one the core may give: never TYPE_ERROR, and an output only with status OK (60_exceptions R210, R211). -/
abbrev ResponsesWf (s : State) : Prop :=
  ∀ r ∈ s.responses, r.status ≠ .typeError ∧ (r.status ≠ .ok → r.output = [])

/-! ## States that cannot be told apart -/

/-- Two contexts agree on every field a rule defines in their mode (10_state R32, R36, R37, R42): the mode; and where they are
configured, the configuration, the lanes and the valid buffer bytes; and where they are SQUEEZING, the cursor. -/
def contextSame (C D : Context) : Prop :=
  C.mode = D.mode ∧
    (C.mode ≠ .unconfigured →
      configRow C = configRow D ∧ C.lanes = D.lanes ∧ C.buflen = D.buflen ∧ C.pending = D.pending) ∧
    (C.mode = .squeezing → C.sqpos = D.sqpos)

/-- Two states whose contexts agree one by one, over the same table; the command port and the free values may differ. -/
def StateSame (s t : State) : Prop := List.Forall₂ contextSame s.ctx t.ctx ∧ s.table = t.table

/-- Every context but CTX[c] is the same in both states, and so are NCTX and the table. -/
def onlyContext (c : CtxIndex) (s t : State) : Prop :=
  t.nctx = s.nctx ∧ t.table = s.table ∧ ∀ k : CtxIndex, k ≠ c → t.context k = s.context k

/-! ## The status a command answers with -/

/-- The context indices a command names (30_encoding R86). -/
def namedContexts : Instr → List CtxIndex
  | .init c _ => [c]
  | .update c _ _ => [c]
  | .digest c _ => [c]
  | .squeeze c _ _ => [c]
  | .copy dst src => [dst, src]
  | .free c => [c]
  | .query c => [c]

/-- The context that must hold an object (60_exceptions R212, item 4). -/
def neededContext : Instr → Option CtxIndex
  | .init _ _ => none
  | .update c _ _ => some c
  | .digest c _ => some c
  | .squeeze c _ _ => some c
  | .copy _ src => some src
  | .free _ => none
  | .query _ => none

/-- The context a command may write; none for the commands that write none (10_state R41). -/
def writtenContext : Instr → Option CtxIndex
  | .init c _ => some c
  | .update c _ _ => some c
  | .digest _ _ => none
  | .squeeze c _ _ => some c
  | .copy dst _ => some dst
  | .free c => some c
  | .query _ => none

/-- The ids that no row has (30_encoding R89, 60_exceptions R213). -/
def unassignedIds : List VariantId := [6, 7, 12, 13, 14, 15]

/-- BAD_CONTEXT applies: a named index is not below NCTX (60_exceptions R213). -/
def badContextApplies (i : Instr) (s : State) : Bool := (namedContexts i).any fun c => decide (s.nctx ≤ c.toNat)

/-- CONFIG_ERROR applies: INIT with an unassigned variant id (60_exceptions R213). -/
def configErrorApplies : Instr → Bool
  | .init _ v => unassignedIds.contains v
  | .update _ _ _ => false
  | .digest _ _ => false
  | .squeeze _ _ _ => false
  | .copy _ _ => false
  | .free _ => false
  | .query _ => false

/-- UNCONFIGURED applies: the needed context holds no object (60_exceptions R213). -/
def unconfiguredApplies (i : Instr) (s : State) : Bool :=
  match (neededContext i).bind s.context with
  | some C => C.mode == .unconfigured
  | none => false

/-- STATE_ERROR applies (60_exceptions R213): UPDATE in SQUEEZING, SQUEEZE of a fixed-output variant, DIGEST of an XOF. -/
def stateErrorApplies (i : Instr) (s : State) : Bool :=
  match i with
  | .update c _ _ => (s.context c).any fun C => C.mode == .squeezing
  | .squeeze c _ _ => (s.context c).any fun C => C.digestSize != 0
  | .digest c _ => (s.context c).any fun C => C.digestSize == 0
  | .init _ _ => false
  | .copy _ _ => false
  | .free _ => false
  | .query _ => false

/-- The status of a command that is not ILLEGAL: the first that applies, in the order of 60_exceptions R212. -/
def expectedStatus (i : Instr) (s : State) : Status :=
  if badContextApplies i s then .badContext
  else if configErrorApplies i then .configError
  else if unconfiguredApplies i s then .unconfigured
  else if stateErrorApplies i s then .stateError
  else .ok

/-- The output length with status OK (30_encoding R91); D is that of the target context. -/
def expectedOutputLength (i : Instr) (s : State) : Nat :=
  match i with
  | .init _ _ => 0
  | .update _ _ _ => 0
  | .copy _ _ => 0
  | .free _ => 0
  | .digest c hex =>
    match s.context c with
    | some C => if hex then 2 * C.digestSize.toNat else C.digestSize.toNat
    | none => 0
  | .squeeze _ hex n => if hex then 2 * n.toNat else n.toNat
  | .query _ => 8

/-! ## Terms of single claims -/

/-- What a decoded frame leaves of the bytes; none where no whole frame has arrived (30_encoding R83). -/
def restAfter : Decoded → Option (List Byte)
  | .command _ rest => some rest
  | .illegal rest => some rest
  | .incomplete => none

/-- The parity of column x (40_permutation R112). -/
def columnOf (A : Lanes) (x : Nat) : Lane :=
  A.lane x ^^^ A.lane (x + 5) ^^^ A.lane (x + 10) ^^^ A.lane (x + 15) ^^^ A.lane (x + 20)

end Sys2Proof.Safety
end

