-- ==== Sys2Proof/Certificates/Slice0/Obligations.lean ====
section
/-! DEFINITION. The statements of this model for the provers, each a Prop named for what it says. A docstring names the rule of spec/ a
statement formalises, or the log entry or the spec's inference it rests on. -/

open Sys2Proof Sys2Proof.Machine Sys2Proof.Safety

/-! ## Encoding -/

/-- The worked encodings of 30_encoding section 4 (the table of R93, which the spec derives from R80 to R89): each frame decodes to its
command, and each command encodes to its frame. -/
def Obligations.WorkedEncodingsAgree : Prop :=
  ∀ e ∈ ([ ([0x01, 0x01, 0x00, 0x00], .init 0 1),
           ([0x11, 0x04, 0x00, 0x00], .init 1 4),
           ([0x01, 0x09, 0x00, 0x00], .init 0 9),
           ([0x02, 0x00, 0x00, 0x00, 0x03, 0x00, 0x00, 0x00, 0x61, 0x62, 0x63], .update 0 3 [0x61, 0x62, 0x63]),
           ([0x02, 0x00, 0x00, 0x00, 0x00, 0x00, 0x00, 0x00], .update 0 0 []),
           ([0x03, 0x00, 0x00, 0x00], .digest 0 false),
           ([0x13, 0x10, 0x00, 0x00], .digest 1 true),
           ([0x14, 0x00, 0x00, 0x00, 0x64, 0x00, 0x00, 0x00], .squeeze 1 false 100),
           ([0x14, 0x10, 0x00, 0x00, 0x04, 0x00, 0x00, 0x00], .squeeze 1 true 4),
           ([0x15, 0x00, 0x00, 0x00], .copy 1 0),
           ([0x16, 0x00, 0x00, 0x00], .free 1),
           ([0x07, 0x00, 0x00, 0x00], .query 0) ] : List (List Byte × Instr)),
    decode e.1 = .command e.2 [] ∧ encode e.2 = e.1

/-- Decoding the frame of any well-formed command gives it back, whatever bytes follow (30_encoding sections 1 and 2). -/
def Obligations.DecodeInvertsEncode : Prop :=
  ∀ (i : Instr) (rest : List Byte), i.wellFormed = true → decode (encode i ++ rest) = .command i rest

/-- Only the frame of a command decodes to it: no two frames carry one command, and what decodes is well-formed
(30_encoding sections 1 and 2). -/
def Obligations.EncodeInvertsDecode : Prop :=
  ∀ (bs rest : List Byte) (i : Instr), decode bs = .command i rest → i.wellFormed = true ∧ bs = encode i ++ rest

/-- R84: a word is ILLEGAL exactly where (a) to (d) say; an INIT with an unassigned variant id is not ILLEGAL but raises
CONFIG_ERROR. -/
def Obligations.IllegalWordsAreThoseOfFieldLegality : Prop :=
  (∀ (w operand : Word) (payload : List Byte),
    instrOf w operand payload = none ↔
      (opcField w = 0 ∨ 8 ≤ (opcField w).toNat) ∨
      rsvField w ≠ 0 ∨
      (auxField w ≠ 0 ∧ opcField w ∈ ([2, 3, 4, 6, 7] : List (BitVec 4))) ∨
      (hexField w = true ∧ opcField w ∈ ([1, 2, 5, 6, 7] : List (BitVec 4)))) ∧
  (∀ (c : CtxIndex) (v : VariantId) (s : State), tableWf s → c.toNat < s.nctx → v ∈ unassignedIds →
    exec (.init c v) s = .next { s with responses := s.responses ++ [⟨.configError, []⟩] })

/-- No word fits two rows of the match and mask table: each row fixes a different OPC (30_encoding section 2, the table of R85, where the
spec marks this as derived). -/
def Obligations.OpcodeRowsExcludeEachOther : Prop :=
  ∀ (w : Word), ∀ r ∈ opcodeTable, ∀ r' ∈ opcodeTable, r.fits w = true → r'.fits w = true → r = r'

/-- R83: the frame length depends on OPC alone, ILLEGAL or not; the payload of an ILLEGAL UPDATE is consumed. -/
def Obligations.FrameLengthFollowsFromOpc : Prop :=
  ∀ (w : Word) (rest : List Byte),
    (opcField w ≠ 2 → opcField w ≠ 4 → restAfter (decode (wordBytes w ++ rest)) = some rest) ∧
    (opcField w = 4 → ∀ n : Word, restAfter (decode (wordBytes w ++ wordBytes n ++ rest)) = some rest) ∧
    (opcField w = 2 → ∀ (len : Word) (payload : List Byte), payload.length = len.toNat →
      restAfter (decode (wordBytes w ++ wordBytes len ++ payload ++ rest)) = some rest)

/-- When a frame has not fully arrived: fewer bytes than its word and its operand word ask for (30_encoding section 4, length decoding; the
spec marks R95 as derived). -/
def Obligations.IncompleteExactlyWhenBytesAreMissing : Prop :=
  (∀ bs : List Byte, bs.length < 4 → decode bs = .incomplete) ∧
  (∀ (w : Word) (tail : List Byte),
    (opcField w ≠ 2 → opcField w ≠ 4 → decode (wordBytes w ++ tail) ≠ .incomplete) ∧
    (opcField w = 4 → (decode (wordBytes w ++ tail) = .incomplete ↔ tail.length < 4)) ∧
    (opcField w = 2 → tail.length < 4 → decode (wordBytes w ++ tail) = .incomplete) ∧
    (opcField w = 2 → ∀ (len : Word) (payload : List Byte),
      (decode (wordBytes w ++ wordBytes len ++ payload) = .incomplete ↔ payload.length < len.toNat)))

/-! ## The step -/

/-- When the bytes at the head of the input decode to a well-formed command, the step is that command run on the state with its frame
consumed (43_engine section 1, the command step). -/
def Obligations.StepRunsTheDecodedCommand : Prop :=
  ∀ (s : State) (i : Instr) (rest : List Byte), i.wellFormed = true → decode s.input = .command i rest →
    step s = exec i { s with input := rest }

/-- A whole frame with an ILLEGAL word: the step answers ILLEGAL with an empty output, changes no context and consumes the frame
(43_engine section 2, reserved encodings; the frame of OPC 4 is 8 bytes, by R83, log entry 15). -/
def Obligations.IllegalFrameIsAnswered : Prop :=
  ∀ (s : State) (w : Word) (rest : List Byte), instrOf w 0 [] = none →
    (opcField w ≠ 2 → opcField w ≠ 4 → s.input = wordBytes w ++ rest →
      step s = .next { s with input := rest, responses := s.responses ++ [⟨.illegal, []⟩] }) ∧
    (∀ n : Word, opcField w = 4 → s.input = wordBytes w ++ wordBytes n ++ rest →
      step s = .next { s with input := rest, responses := s.responses ++ [⟨.illegal, []⟩] }) ∧
    (∀ (len : Word) (payload : List Byte), opcField w = 2 → payload.length = len.toNat →
      s.input = wordBytes w ++ wordBytes len ++ payload ++ rest →
      step s = .next { s with input := rest, responses := s.responses ++ [⟨.illegal, []⟩] })

/-- Without a whole frame the core waits: the step answers the same state, and when the host has sent the missing bytes of a command's
frame, the step runs it (the model's choice, log entry 8: a waiting core is a step to the same state). -/
def Obligations.IncompleteFrameWaits : Prop :=
  ∀ (s : State), decode s.input = .incomplete →
    step s = .next s ∧
    ∀ (missing rest : List Byte) (i : Instr), decode (s.input ++ missing) = .command i rest →
      step (s.send missing) = exec i { s with input := rest }

/-! ## The commands -/

/-- R162, INIT: its words; BAD_CONTEXT, then CONFIG_ERROR; and the context it leaves, whatever it held before. -/
def Obligations.InitFollowsItsRule : Prop :=
  (∀ (w operand : Word) (payload : List Byte), opcField w = 1 →
    instrOf w operand payload =
      if hexField w = false ∧ rsvField w = 0 then some (.init (ctxField w) (auxField w)) else none) ∧
  (∀ (c : CtxIndex) (v : VariantId), (encode (.init c v)).length = 4) ∧
  (∀ (c : CtxIndex) (v : VariantId) (s : State), s.nctx ≤ c.toNat →
    exec (.init c v) s = .next { s with responses := s.responses ++ [⟨.badContext, []⟩] }) ∧
  (∀ (c : CtxIndex) (v : VariantId) (s : State), c.toNat < s.nctx → tableRow s.table v = none →
    exec (.init c v) s = .next { s with responses := s.responses ++ [⟨.configError, []⟩] }) ∧
  (∀ (c : CtxIndex) (v : VariantId) (s : State) (row : VariantRow), c.toNat < s.nctx → tableRow s.table v = some row →
    ∃ t C, exec (.init c v) s = .next t ∧ t.responses = s.responses ++ [⟨.ok, []⟩] ∧ t.input = s.input ∧ onlyContext c s t ∧
      t.context c = some C ∧ C.mode = .absorbing ∧ C.var = v ∧ C.rate = row.rate ∧ C.digestSize = row.digestSize ∧
      C.suffix = row.suffix ∧ C.blockSize = row.blockSize ∧ (∀ i < 25, C.lanes.lane i = 0) ∧ C.buflen = 0)

/-- R163, UPDATE: its words; BAD_CONTEXT, UNCONFIGURED, STATE_ERROR; and what it leaves of an ABSORBING context: every full block of the
buffered bytes and the payload absorbed in order, the remainder buffered; LEN = 0 changes nothing. -/
def Obligations.UpdateFollowsItsRule : Prop :=
  (∀ (w operand : Word) (payload : List Byte), opcField w = 2 →
    instrOf w operand payload =
      if auxField w = 0 ∧ hexField w = false ∧ rsvField w = 0 then some (.update (ctxField w) operand payload) else none) ∧
  (∀ (c : CtxIndex) (len : Word) (p : List Byte), p.length = len.toNat → (encode (.update c len p)).length = 8 + len.toNat) ∧
  (∀ (c : CtxIndex) (len : Word) (p : List Byte) (s : State), s.nctx ≤ c.toNat →
    exec (.update c len p) s = .next { s with responses := s.responses ++ [⟨.badContext, []⟩] }) ∧
  (∀ (c : CtxIndex) (len : Word) (p : List Byte) (s : State) (C : Context), s.context c = some C →
    (C.mode = .unconfigured →
      exec (.update c len p) s = .next { s with responses := s.responses ++ [⟨.unconfigured, []⟩] }) ∧
    (C.mode = .squeezing →
      exec (.update c len p) s = .next { s with responses := s.responses ++ [⟨.stateError, []⟩] })) ∧
  (∀ (c : CtxIndex) (len : Word) (p : List Byte) (s : State) (C : Context), s.context c = some C → C.mode = .absorbing →
    1 ≤ C.rate.toNat → C.rate.toNat ≤ 168 → C.buflen.toNat < C.rate.toNat → p.length = len.toNat →
    ∃ t D, exec (.update c len p) s = .next t ∧ t.responses = s.responses ++ [⟨.ok, []⟩] ∧ t.input = s.input ∧ onlyContext c s t ∧
      t.context c = some D ∧ D.mode = .absorbing ∧ configRow D = configRow C ∧ D.sqpos = C.sqpos ∧
      D.lanes = absorbBlocks C.rate.toNat ((C.pending ++ p).length / C.rate.toNat) C.lanes (C.pending ++ p) ∧
      D.pending = (C.pending ++ p).drop ((C.pending ++ p).length / C.rate.toNat * C.rate.toNat) ∧
      D.buflen.toNat = (C.pending ++ p).length % C.rate.toNat) ∧
  (∀ (c : CtxIndex) (s : State) (C : Context), s.context c = some C → C.mode = .absorbing → C.rate.toNat ≤ 168 →
    C.buflen.toNat < C.rate.toNat →
    exec (.update c 0 []) s = .next { s with responses := s.responses ++ [⟨.ok, []⟩] })

/-- R164, DIGEST: its words; BAD_CONTEXT, UNCONFIGURED, STATE_ERROR; and the digest, the first D bytes of the finalized state's stream,
with nothing written but the response. -/
def Obligations.DigestFollowsItsRule : Prop :=
  (∀ (w operand : Word) (payload : List Byte), opcField w = 3 →
    instrOf w operand payload =
      if auxField w = 0 ∧ rsvField w = 0 then some (.digest (ctxField w) (hexField w)) else none) ∧
  (∀ (c : CtxIndex) (hex : Bool), (encode (.digest c hex)).length = 4) ∧
  (∀ (c : CtxIndex) (hex : Bool) (s : State), s.nctx ≤ c.toNat →
    exec (.digest c hex) s = .next { s with responses := s.responses ++ [⟨.badContext, []⟩] }) ∧
  (∀ (c : CtxIndex) (hex : Bool) (s : State) (C : Context), s.context c = some C →
    (C.mode = .unconfigured →
      exec (.digest c hex) s = .next { s with responses := s.responses ++ [⟨.unconfigured, []⟩] }) ∧
    (C.mode ≠ .unconfigured → C.digestSize = 0 →
      exec (.digest c hex) s = .next { s with responses := s.responses ++ [⟨.stateError, []⟩] }) ∧
    (C.mode ≠ .unconfigured → C.digestSize ≠ 0 → 1 ≤ C.rate.toNat → C.rate.toNat ≤ 168 →
      exec (.digest c hex) s =
        .next { s with
          responses := s.responses ++
            [⟨.ok, outputForm hex
              (streamPrefix C.rate.toNat (finalize C.lanes C.pending C.rate.toNat C.suffix) C.digestSize.toNat)⟩] }))

/-- SQUEEZE (43_engine section 2): its words; BAD_CONTEXT, UNCONFIGURED, STATE_ERROR; in ABSORBING the context is finalized first; the output
is the next N bytes of the stream; the permutation runs only when another byte is wanted and the block is used up (41_sponge R136). That
every byte of BUF stays as it was is the model's choice, log entry 9: the spec leaves the bytes at BUFLEN and above unspecified. -/
def Obligations.SqueezeFollowsItsRule : Prop :=
  (∀ (w operand : Word) (payload : List Byte), opcField w = 4 →
    instrOf w operand payload =
      if auxField w = 0 ∧ rsvField w = 0 then some (.squeeze (ctxField w) (hexField w) operand) else none) ∧
  (∀ (c : CtxIndex) (hex : Bool) (n : Word), (encode (.squeeze c hex n)).length = 8) ∧
  (∀ (c : CtxIndex) (hex : Bool) (n : Word) (s : State), s.nctx ≤ c.toNat →
    exec (.squeeze c hex n) s = .next { s with responses := s.responses ++ [⟨.badContext, []⟩] }) ∧
  (∀ (c : CtxIndex) (hex : Bool) (n : Word) (s : State) (C : Context), s.context c = some C →
    (C.mode = .unconfigured →
      exec (.squeeze c hex n) s = .next { s with responses := s.responses ++ [⟨.unconfigured, []⟩] }) ∧
    (C.mode ≠ .unconfigured → C.digestSize ≠ 0 →
      exec (.squeeze c hex n) s = .next { s with responses := s.responses ++ [⟨.stateError, []⟩] })) ∧
  (∀ (c : CtxIndex) (hex : Bool) (n : Word) (s : State) (C : Context), s.context c = some C → C.mode ≠ .unconfigured →
    C.digestSize = 0 → 1 ≤ C.rate.toNat → C.rate.toNat ≤ 168 → (C.mode = .squeezing → C.sqpos.toNat ≤ C.rate.toNat) →
    ∃ t D A pos, exec (.squeeze c hex n) s = .next t ∧ t.input = s.input ∧ onlyContext c s t ∧
      (C.mode = .absorbing → A = finalize C.lanes C.pending C.rate.toNat C.suffix ∧ pos = 0 ∧ D.buflen = 0) ∧
      (C.mode = .squeezing → A = C.lanes ∧ pos = C.sqpos.toNat ∧ D.buflen = C.buflen) ∧
      t.responses = s.responses ++ [⟨.ok, outputForm hex ((streamPrefix C.rate.toNat A (pos + n.toNat)).drop pos)⟩] ∧
      t.context c = some D ∧ D.mode = .squeezing ∧ configRow D = configRow C ∧ D.buf = C.buf ∧
      D.lanes = keccakPower ((pos + n.toNat - 1) / C.rate.toNat) A ∧
      D.sqpos.toNat = pos + n.toNat - C.rate.toNat * ((pos + n.toNat - 1) / C.rate.toNat))

/-- R166, COPY: its words; BAD_CONTEXT for either index, UNCONFIGURED for the source; a copy onto itself changes nothing; else the
destination takes every field of the source and its valid buffer bytes, whatever it held, and every other context stays. -/
def Obligations.CopyFollowsItsRule : Prop :=
  (∀ (w operand : Word) (payload : List Byte), opcField w = 5 →
    instrOf w operand payload =
      if hexField w = false ∧ rsvField w = 0 then some (.copy (ctxField w) (auxField w)) else none) ∧
  (∀ dst src : CtxIndex, (encode (.copy dst src)).length = 4) ∧
  (∀ (dst src : CtxIndex) (s : State), s.nctx ≤ dst.toNat ∨ s.nctx ≤ src.toNat →
    exec (.copy dst src) s = .next { s with responses := s.responses ++ [⟨.badContext, []⟩] }) ∧
  (∀ (dst src : CtxIndex) (s : State) (S : Context), dst.toNat < s.nctx → s.context src = some S →
    (S.mode = .unconfigured →
      exec (.copy dst src) s = .next { s with responses := s.responses ++ [⟨.unconfigured, []⟩] }) ∧
    (S.mode ≠ .unconfigured → dst = src →
      exec (.copy dst src) s = .next { s with responses := s.responses ++ [⟨.ok, []⟩] }) ∧
    (S.mode ≠ .unconfigured → S.buflen.toNat ≤ 167 → dst ≠ src →
      ∃ t D, exec (.copy dst src) s = .next t ∧ t.responses = s.responses ++ [⟨.ok, []⟩] ∧ t.input = s.input ∧
        onlyContext dst s t ∧ t.context dst = some D ∧ D.mode = S.mode ∧ configRow D = configRow S ∧ D.lanes = S.lanes ∧
        D.buflen = S.buflen ∧ D.pending = S.pending ∧ D.sqpos = S.sqpos))

/-- R167, FREE: its words; BAD_CONTEXT; the context becomes UNCONFIGURED and every other context stays; on an UNCONFIGURED context it
changes nothing. -/
def Obligations.FreeFollowsItsRule : Prop :=
  (∀ (w operand : Word) (payload : List Byte), opcField w = 6 →
    instrOf w operand payload =
      if auxField w = 0 ∧ hexField w = false ∧ rsvField w = 0 then some (.free (ctxField w)) else none) ∧
  (∀ c : CtxIndex, (encode (.free c)).length = 4) ∧
  (∀ (c : CtxIndex) (s : State), s.nctx ≤ c.toNat →
    exec (.free c) s = .next { s with responses := s.responses ++ [⟨.badContext, []⟩] }) ∧
  (∀ (c : CtxIndex) (s : State) (C : Context), s.context c = some C → C.mode = .unconfigured →
    exec (.free c) s = .next { s with responses := s.responses ++ [⟨.ok, []⟩] }) ∧
  (∀ (c : CtxIndex) (s : State), c.toNat < s.nctx →
    ∃ t D, exec (.free c) s = .next t ∧ t.responses = s.responses ++ [⟨.ok, []⟩] ∧ t.input = s.input ∧ onlyContext c s t ∧
      t.context c = some D ∧ D.mode = .unconfigured)

/-- R168 and R43, QUERY: its words; BAD_CONTEXT; the 8 bytes of CTXINFO, with nothing written but the response. -/
def Obligations.QueryFollowsItsRule : Prop :=
  (∀ (w operand : Word) (payload : List Byte), opcField w = 7 →
    instrOf w operand payload =
      if auxField w = 0 ∧ hexField w = false ∧ rsvField w = 0 then some (.query (ctxField w)) else none) ∧
  (∀ c : CtxIndex, (encode (.query c)).length = 4) ∧
  (∀ (c : CtxIndex) (s : State), s.nctx ≤ c.toNat →
    exec (.query c) s = .next { s with responses := s.responses ++ [⟨.badContext, []⟩] }) ∧
  (∀ (c : CtxIndex) (s : State) (C : Context), s.context c = some C →
    (C.mode = .unconfigured →
      exec (.query c) s = .next { s with responses := s.responses ++ [⟨.ok, [0xFF, 0, 0, 0, 0, 0, 0, 0]⟩] }) ∧
    (C.mode = .absorbing →
      exec (.query c) s =
        .next { s with
          responses := s.responses ++
            [⟨.ok, [C.var.setWidth 8, 0x01, C.rate, C.digestSize, C.blockSize, C.suffix, BitVec.ofNat 8 (200 - C.rate.toNat),
              0x00]⟩] }) ∧
    (C.mode = .squeezing →
      exec (.query c) s =
        .next { s with
          responses := s.responses ++
            [⟨.ok, [C.var.setWidth 8, 0x02, C.rate, C.digestSize, C.blockSize, C.suffix, BitVec.ofNat 8 (200 - C.rate.toNat),
              0x00]⟩] }))

/-- The examples of the command rules (43_engine section 2), as one sequence from the state after reset with NCTX = 2: the answers to
INIT, UPDATE, DIGEST, COPY, DIGEST of the copy, FREE, DIGEST of the freed context, INIT of SHAKE128, QUERY, SQUEEZE and QUERY again. -/
def Obligations.ExamplesOfTheCommandRules : Prop :=
  ∃ t, execAll
      [ .init 0 1, .update 0 3 [0x61, 0x62, 0x63], .digest 0 false, .copy 1 0, .digest 1 false, .free 1, .digest 1 false, .init 1 4,
        .query 1, .squeeze 1 false 32, .query 1 ] (State.resetWith 2 .na) = .next t ∧
    t.responses =
      [ ⟨.ok, []⟩, ⟨.ok, []⟩,
        ⟨.ok, [0x3a, 0x98, 0x5d, 0xa7, 0x4f, 0xe2, 0x25, 0xb2, 0x04, 0x5c, 0x17, 0x2d, 0x6b, 0xd3, 0x90, 0xbd, 0x85, 0x5f, 0x08, 0x6e,
          0x3e, 0x9d, 0x52, 0x5b, 0x46, 0xbf, 0xe2, 0x45, 0x11, 0x43, 0x15, 0x32]⟩,
        ⟨.ok, []⟩,
        ⟨.ok, [0x3a, 0x98, 0x5d, 0xa7, 0x4f, 0xe2, 0x25, 0xb2, 0x04, 0x5c, 0x17, 0x2d, 0x6b, 0xd3, 0x90, 0xbd, 0x85, 0x5f, 0x08, 0x6e,
          0x3e, 0x9d, 0x52, 0x5b, 0x46, 0xbf, 0xe2, 0x45, 0x11, 0x43, 0x15, 0x32]⟩,
        ⟨.ok, []⟩, ⟨.unconfigured, []⟩, ⟨.ok, []⟩, ⟨.ok, [0x04, 0x01, 0xa8, 0x00, 0x00, 0x1f, 0x20, 0x00]⟩,
        ⟨.ok, [0x7f, 0x9c, 0x2b, 0xa4, 0xe8, 0x8f, 0x82, 0x7d, 0x61, 0x60, 0x45, 0x50, 0x76, 0x05, 0x85, 0x3e, 0xd7, 0x3b, 0x80, 0x93,
          0xf6, 0xef, 0xbc, 0x88, 0xeb, 0x1a, 0x6e, 0xac, 0xfa, 0x66, 0xef, 0x26]⟩,
        ⟨.ok, [0x04, 0x02, 0xa8, 0x00, 0x00, 0x1f, 0x20, 0x00]⟩ ]

/-! ## Statuses and responses -/

/-- R212: a command answers with the first status that applies, in the order ILLEGAL, BAD_CONTEXT, CONFIG_ERROR, UNCONFIGURED,
STATE_ERROR; the causes are those of R213, and the response carries the code only. -/
def Obligations.StatusFollowsThePriority : Prop :=
  (∀ (i : Instr) (s : State), tableWf s →
    ∃ t out, exec i s = .next t ∧ t.responses = s.responses ++ [⟨expectedStatus i s, out⟩] ∧ (expectedStatus i s ≠ .ok → out = [])) ∧
  (∀ (s : State) (rest : List Byte), decode s.input = .illegal rest →
    ∃ t, step s = .next t ∧ t.responses = s.responses ++ [⟨.illegal, []⟩]) ∧
  (∀ (w operand : Word) (payload rest : List Byte),
    decodeFrame w operand payload rest = .illegal rest ↔
      (opcField w = 0 ∨ 8 ≤ (opcField w).toNat) ∨ rsvField w ≠ 0 ∨
      (auxField w ≠ 0 ∧ opcField w ∈ ([2, 3, 4, 6, 7] : List (BitVec 4))) ∨
      (hexField w = true ∧ opcField w ∈ ([1, 2, 5, 6, 7] : List (BitVec 4))))

/-- R211: a command that answers with any status but OK writes no field of any context and outputs nothing; only its frame is
consumed. -/
def Obligations.ErrorsHaveNoEffect : Prop :=
  (∀ (i : Instr) (s t : State) (st : Status) (out : List Byte), exec i s = .next t →
    t.responses = s.responses ++ [⟨st, out⟩] → st ≠ .ok → t = { s with responses := s.responses ++ [⟨st, []⟩] }) ∧
  (∀ (s t : State) (st : Status) (out : List Byte), step s = .next t → t.responses = s.responses ++ [⟨st, out⟩] → st ≠ .ok →
    ∃ rest, restAfter (decode s.input) = some rest ∧ t = { s with input := rest, responses := s.responses ++ [⟨st, []⟩] })

/-- R91: every frame is answered with exactly one response, put after the earlier ones; its output is empty unless the status is OK, and
then has the length the command and the context fix; the frame is the status byte and then the output. -/
def Obligations.OneResponseOfTheRightLength : Prop :=
  (∀ (i : Instr) (s : State), StateWf s →
    ∃ t st out, exec i s = .next t ∧ t.responses = s.responses ++ [⟨st, out⟩] ∧
      (st ≠ .ok → out = []) ∧ (st = .ok → out.length = expectedOutputLength i s)) ∧
  (∀ (s : State), StateWf s → decode s.input ≠ .incomplete →
    ∃ t r, step s = .next t ∧ t.responses = s.responses ++ [r] ∧ (r.status ≠ .ok → r.output = [])) ∧
  (∀ r : Response, r.bytes = r.status.code :: r.output)

/-- The core never returns TYPE_ERROR nor an output with an error: every step keeps the responses so (60_exceptions section 1, the table of
statuses, and R211). -/
def Obligations.StepKeepsResponsesWellFormed : Prop :=
  ∀ s t : State, ResponsesWf s → step s = .next t → ResponsesWf t

/-- R87: HEX changes the form of the output and nothing else. -/
def Obligations.HexFlagChangesOnlyTheForm : Prop :=
  ∀ (s : State) (c : CtxIndex) (n : Word) (i j : Instr),
    (i = .digest c false ∧ j = .digest c true) ∨ (i = .squeeze c false n ∧ j = .squeeze c true n) →
    ∃ t u st out, exec i s = .next t ∧ exec j s = .next u ∧ t.responses = s.responses ++ [⟨st, out⟩] ∧
      u.responses = s.responses ++ [⟨st, hexText out⟩] ∧ { u with responses := t.responses } = t

/-- Hex (43_engine section 3): two ASCII digits a byte, the high nibble first, `0`..`9` as 0x30..0x39 and `a`..`f` as 0x61..0x66; and, which
the spec marks as its own inference, decoding gives the bytes back, so Hex is injective. -/
def Obligations.HexTextRule : Prop :=
  (∀ s : List Byte, (hexText s).length = 2 * s.length) ∧
  (∀ (s : List Byte) (k : Nat) (b : Byte), s[k]? = some b →
    (hexText s)[2 * k]? =
      ([0x30, 0x31, 0x32, 0x33, 0x34, 0x35, 0x36, 0x37, 0x38, 0x39, 0x61, 0x62, 0x63, 0x64, 0x65, 0x66] : List Byte)[b.toNat / 16]? ∧
    (hexText s)[2 * k + 1]? =
      ([0x30, 0x31, 0x32, 0x33, 0x34, 0x35, 0x36, 0x37, 0x38, 0x39, 0x61, 0x62, 0x63, 0x64, 0x65, 0x66] : List Byte)[b.toNat % 16]?) ∧
  (∀ s : List Byte, hexDecode (hexText s) = some s) ∧
  (∀ s t : List Byte, hexText s = hexText t → s = t)

/-! ## Frames and isolation -/

/-- R44: contexts never alias. A command changes no field of a context it does not write; a COPY leaves a copy that agrees with its
source and leaves the source as it was. -/
def Obligations.ContextsNeverAlias : Prop :=
  (∀ (i : Instr) (s t : State) (k : CtxIndex), exec i s = .next t → writtenContext i ≠ some k → t.context k = s.context k) ∧
  (∀ (s : State) (dst src : CtxIndex) (S : Context), dst ≠ src → dst.toNat < s.nctx → s.context src = some S →
    S.mode ≠ .unconfigured → S.buflen.toNat ≤ 167 →
    ∃ t D, exec (.copy dst src) s = .next t ∧ t.context dst = some D ∧ contextSame D S ∧ t.context src = some S)

/-- The frame of every command (10_state section 4, read and write sets, which the spec derives): NCTX, the table and the input stay; only
the context it writes may change, and of it INIT keeps BUF, UPDATE keeps MODE, the configuration and SQPOS, and SQUEEZE keeps the
configuration and BUF (the bytes of BUF past BUFLEN by the model's reading, log entry 9); DIGEST and QUERY write nothing but the
response. -/
def Obligations.FrameOfEveryCommand : Prop :=
  ∀ (i : Instr) (s t : State), exec i s = .next t →
    t.nctx = s.nctx ∧ t.table = s.table ∧ t.input = s.input ∧
    (∀ k : CtxIndex, writtenContext i ≠ some k → t.context k = s.context k) ∧
    (∀ (c : CtxIndex) (v : VariantId) (C D : Context), i = .init c v → s.context c = some C → t.context c = some D → D.buf = C.buf) ∧
    (∀ (c : CtxIndex) (len : Word) (p : List Byte) (C D : Context), i = .update c len p → s.context c = some C →
      t.context c = some D → D.mode = C.mode ∧ configRow D = configRow C ∧ D.sqpos = C.sqpos ∧ t.draws = s.draws) ∧
    (∀ (c : CtxIndex) (hex : Bool) (n : Word) (C D : Context), i = .squeeze c hex n → s.context c = some C →
      t.context c = some D → configRow D = configRow C ∧ D.buf = C.buf ∧ t.draws = s.draws) ∧
    (∀ (c : CtxIndex) (hex : Bool), i = .digest c hex ∨ i = .query c → t = { s with responses := t.responses })

/-- R242: the table is valid from reset, and no command, reset or error changes it. -/
def Obligations.TableIsNeverWritten : Prop :=
  (∀ (n : Nat) (x : XofBlockSize), (State.resetWith n x).table = variantTable x) ∧
  (∀ s t : State, step s = .next t → t.table = s.table) ∧
  (∀ s : State, s.hardReset.table = s.table)

/-- Every step keeps the well-formed states (10_state section 2, the per-mode invariants, which the spec derives): NCTX in 1 to 16, the fixed
table, the configuration of each context that of its row, BUFLEN < R, and SQUEEZING only of an XOF row with an empty buffer and
SQPOS ≤ R. -/
def Obligations.StepKeepsStateWellFormed : Prop :=
  ∀ s t : State, StateWf s → step s = .next t → StateWf t

/-- The state after reset is well-formed, for every NCTX and XOF_BLOCK_SIZE the spec allows, and so is a machine reset while it runs
(70_reset section 1). -/
def Obligations.ResetIsWellFormed : Prop :=
  (∀ (n : Nat) (x : XofBlockSize), 1 ≤ n → n ≤ 16 → StateWf (State.resetWith n x) ∧ ResponsesWf (State.resetWith n x)) ∧
  StateWf State.reset ∧
  (∀ s : State, StateWf s → StateWf s.hardReset)

/-- Reset leaves every context UNCONFIGURED and the table as it was (70_reset section 1); and after a reset the core decodes the bytes sent
after it alone, the bytes that waited being dropped, which is the model's choice, log entry 12: the spec says only that the first frame
accepted after reset is decoded as a command word. -/
def Obligations.ResetUnconfiguresEveryContext : Prop :=
  (∀ (n : Nat) (x : XofBlockSize) (k : CtxIndex), k.toNat < n →
    ∃ C, (State.resetWith n x).context k = some C ∧ C.mode = .unconfigured) ∧
  (∀ (s : State) (k : CtxIndex), k.toNat < s.nctx → ∃ C, s.hardReset.context k = some C ∧ C.mode = .unconfigured) ∧
  (∀ s : State, s.hardReset.nctx = s.nctx ∧ s.hardReset.table = s.table) ∧
  (∀ (s : State) (bs : List Byte), (s.hardReset.send bs).fetch = decode bs)

/-- No answer depends on a field the spec leaves unspecified or on the command port (10_state section 4, hidden state; 70_reset section 1):
two well-formed states that agree on the fields rules define, whatever else they hold, give the same response to every command and
states that agree again. -/
def Obligations.UnspecifiedFieldsAreUnobservable : Prop :=
  ∀ (i : Instr) (s t : State), StateWf s → StateWf t → StateSame s t →
    ∃ s' t' r, exec i s = .next s' ∧ exec i t = .next t' ∧ s'.responses = s.responses ++ [r] ∧
      t'.responses = t.responses ++ [r] ∧ StateSame s' t'

/-- No command depends on earlier responses or on the bytes still waiting (43_engine section 1: no step depends on earlier responses;
60_exceptions section 3: an error leaves no sticky state). -/
def Obligations.EarlierResponsesDoNotMatter : Prop :=
  ∀ (i : Instr) (s : State) (input : List Byte) (responses : List Response),
    ∃ t r, exec i s = .next t ∧ t.responses = s.responses ++ [r] ∧
      exec i { s with input := input, responses := responses } =
        .next { t with input := input, responses := responses ++ [r] }

/-- Commands on different contexts commute in their effect on context state (20_memory section 4, which the spec derives): in either order
the contexts agree on the fields rules define, and each command gets the same response. -/
def Obligations.CommandsOnDifferentContextsCommute : Prop :=
  ∀ (i j : Instr) (s : State), StateWf s → (∀ c ∈ namedContexts i, c ∉ namedContexts j) →
    ∃ s1 s2 t1 t2 ri rj, exec i s = .next s1 ∧ exec j s1 = .next s2 ∧ exec j s = .next t1 ∧ exec i t1 = .next t2 ∧
      s2.responses = s.responses ++ [ri, rj] ∧ t2.responses = s.responses ++ [rj, ri] ∧ StateSame s2 t2

/-- R246: squeeze is one-way. A SQUEEZE that succeeds, N = 0 included, leaves its context SQUEEZING; the context stays so under every
command but INIT, COPY and FREE onto it; and until then every UPDATE answers STATE_ERROR and changes nothing. -/
def Obligations.SqueezeIsOneWay : Prop :=
  (∀ (c : CtxIndex) (hex : Bool) (n : Word) (s t : State) (out : List Byte), exec (.squeeze c hex n) s = .next t →
    t.responses = s.responses ++ [⟨.ok, out⟩] → ∃ C, t.context c = some C ∧ C.mode = .squeezing) ∧
  (∀ (i : Instr) (c : CtxIndex) (s t : State) (C : Context), s.context c = some C → C.mode = .squeezing →
    (∀ v, i ≠ .init c v) → (∀ src, i ≠ .copy c src) → i ≠ .free c → exec i s = .next t →
    ∃ D, t.context c = some D ∧ D.mode = .squeezing) ∧
  (∀ (c : CtxIndex) (len : Word) (p : List Byte) (s : State) (C : Context), s.context c = some C → C.mode = .squeezing →
    exec (.update c len p) s = .next { s with responses := s.responses ++ [⟨.stateError, []⟩] })

/-- DIGEST does not consume the context (43_engine section 3, which the spec derives): after a DIGEST, every command answers as it would
have without it and leaves the same contexts; and a second DIGEST gives the same output. -/
def Obligations.DigestDoesNotConsume : Prop :=
  ∀ (c : CtxIndex) (hex : Bool) (i : Instr) (s t : State), exec (.digest c hex) s = .next t →
    (∃ u v r, exec i t = .next u ∧ exec i s = .next v ∧ u.responses = t.responses ++ [r] ∧ v.responses = s.responses ++ [r] ∧
      u.ctx = v.ctx) ∧
    ∃ u r, exec (.digest c hex) t = .next u ∧ t.responses = s.responses ++ [r] ∧ u.responses = t.responses ++ [r]

/-! ## The laws of the incremental engine -/

/-- Chunking invariance (43_engine section 3, which the spec derives): INIT, then UPDATEs whose payloads are any split of M, then DIGEST,
from any well-formed state, give H(M). -/
def Obligations.ChunkingInvariance : Prop :=
  ∀ (s : State) (c : CtxIndex) (v : VariantId) (row : VariantRow) (chunks : List (List Byte)) (hex : Bool),
    StateWf s → c.toNat < s.nctx → tableRow s.table v = some row → row.digestSize ≠ 0 →
    (∀ p ∈ chunks, p.length < 2 ^ 32) →
    ∃ (t : State) (earlier : List Response),
      execAll ([Instr.init c v] ++ chunks.map (fun p => Instr.update c (BitVec.ofNat 32 p.length) p) ++ [Instr.digest c hex]) s = .next t ∧
      t.responses = earlier ++ [⟨.ok, outputForm hex (hashOf row chunks.flatten)⟩]

/-- Prefix stream (43_engine section 3, which the spec derives): after INIT of an XOF row and UPDATEs whose payloads make up M, SQUEEZE
commands of any lengths output, one after another, the bytes of XOF(M). -/
def Obligations.SqueezesOutputOneStream : Prop :=
  ∀ (s : State) (c : CtxIndex) (v : VariantId) (row : VariantRow) (chunks : List (List Byte)) (lengths : List Word),
    StateWf s → c.toNat < s.nctx → tableRow s.table v = some row → row.digestSize = 0 →
    (∀ p ∈ chunks, p.length < 2 ^ 32) →
    ∃ (t : State) (earlier : List Response) (outs : List (List Byte)),
      execAll ([Instr.init c v] ++ chunks.map (fun p => Instr.update c (BitVec.ofNat 32 p.length) p) ++
        lengths.map (fun n => Instr.squeeze c false n)) s = .next t ∧
      t.responses = earlier ++ outs.map (fun out => ⟨.ok, out⟩) ∧
      outs.map List.length = lengths.map BitVec.toNat ∧
      outs.flatten = xofOutput row chunks.flatten (lengths.map BitVec.toNat).sum

/-! ## The permutation -/

/-- R112: θ by lane index, and its corner cases. -/
def Obligations.ThetaFormula : Prop :=
  (∀ (A : Lanes) (i : Nat), i < 25 →
    (theta A).lane i =
      A.lane i ^^^ (columnOf A ((i % 5 + 4) % 5) ^^^ rotl64 (columnOf A ((i % 5 + 1) % 5)) 1)) ∧
  theta .zero = .zero ∧
  (∀ A : Lanes, (∀ x < 5, columnOf A x = 0) → theta A = A)

/-- R113 and R114: ρ and π by lane index; the rotation is ROTL64 and every offset is in 0..63; the lane at (x, y) moves to
(y, 2x + 3y), and only lane 0 stays in place. -/
def Obligations.RhoAndPiFormulas : Prop :=
  (∀ (A : Lanes) (i r : Nat), rotationOffsets[i]? = some r → r ≤ 63 ∧ (rho A).lane i = (A.lane i).rotateLeft r) ∧
  rotationOffsets.length = 25 ∧
  (∀ A : Lanes, (rho A).lane 0 = A.lane 0) ∧
  (∀ (A : Lanes) (x y : Nat), x < 5 → y < 5 → (pi A).lane (x + 5 * y) = A.lane ((x + 3 * y) % 5 + 5 * x)) ∧
  (∀ (A : Lanes) (x y : Nat), x < 5 → y < 5 → (pi A).lane (y + 5 * ((2 * x + 3 * y) % 5)) = A.lane (x + 5 * y)) ∧
  (∀ x y : Nat, x < 5 → y < 5 → ((x + 3 * y) % 5 + 5 * x = x + 5 * y ↔ x = 0 ∧ y = 0))

/-- R115 and R116: χ and ι by lane index; the all-zero and the all-ones states are fixed points of χ; ι changes lane 0 only. -/
def Obligations.ChiAndIotaFormulas : Prop :=
  (∀ (A : Lanes) (x y : Nat), x < 5 → y < 5 →
    (chi A).lane (x + 5 * y) = A.lane (x + 5 * y) ^^^ (~~~A.lane ((x + 1) % 5 + 5 * y) &&& A.lane ((x + 2) % 5 + 5 * y))) ∧
  chi .zero = .zero ∧
  (∀ A : Lanes, (∀ i < 25, A.lane i = BitVec.allOnes 64) → chi A = A) ∧
  (∀ (A : Lanes) (ir : Nat), (iota A (roundConstant ir)).lane 0 = A.lane 0 ^^^ roundConstant ir) ∧
  (∀ (A : Lanes) (ir i : Nat), 1 ≤ i → i < 25 → (iota A (roundConstant ir)).lane i = A.lane i) ∧
  (∀ ir < 24, ∀ b < 64, (roundConstant ir).getLsbD b = true → b ∈ [0, 1, 3, 7, 15, 31, 63])

/-- R111 and R118: a round is θ, ρ, π, χ, ι in this order, and Keccak_f is the 24 rounds in increasing order of ir; it does not map the zero
state to zero. -/
def Obligations.PermutationIsTwentyFourRounds : Prop :=
  (∀ (A : Lanes) (ir : Nat), round A ir = iota (chi (pi (rho (theta A)))) (roundConstant ir)) ∧
  (∀ A : Lanes, keccakF A = Nat.rec (motive := fun _ => Lanes) A (fun ir B => round B ir) 24) ∧
  (keccakF .zero).lane 0 = 0xF1258F7940E1DDE7

/-- R117 and R120: the generating rules give the tables of round constants and rotation offsets. -/
def Obligations.GeneratingRulesGiveTheTables : Prop :=
  (∀ ir < 24, generatedRoundConstant ir = roundConstant ir) ∧ generatedOffsets = rotationOffsets

/-- R121: Keccak_f is a bijection on the states, and so is each step mapping. -/
def Obligations.KeccakIsABijection : Prop :=
  Function.Bijective theta ∧ Function.Bijective rho ∧ Function.Bijective pi ∧ Function.Bijective chi ∧
  (∀ rc : Lane, Function.Bijective fun A => iota A rc) ∧ Function.Bijective keccakF

/-! ## Sponge and padding -/

/-- R61: the byte view is little-endian: byte k of the view is byte k mod 8 of lane k div 8, least significant first, and a lane is the sum
of its bytes. -/
def Obligations.ByteViewIsLittleEndian : Prop :=
  (∀ A : Lanes, (stateBytes A).length = 200) ∧
  (∀ (A : Lanes) (k : Nat), k < 200 → (stateBytes A)[k]? = some ((A.lane (k / 8)).extractLsb' (8 * (k % 8)) 8)) ∧
  (∀ (A : Lanes) (i : Nat), i < 25 →
    (A.lane i).toNat = ((List.range 8).map fun j => ((stateBytes A).getD (8 * i + j) 0).toNat * 2 ^ (8 * j)).sum)

/-- R131: XorIn exclusive-ors the first len(s) bytes of the view and leaves the others, the capacity among them; a byte changes only its
own lane; the empty string changes nothing. -/
def Obligations.XorInChangesTheFirstBytes : Prop :=
  (∀ (A : Lanes) (s : List Byte) (k : Nat) (t b : Byte), s.length ≤ 200 → (stateBytes A)[k]? = some t → s[k]? = some b →
    (stateBytes (xorIn A s))[k]? = some (t ^^^ b)) ∧
  (∀ (A : Lanes) (s : List Byte) (k : Nat), s.length ≤ k → (stateBytes (xorIn A s))[k]? = (stateBytes A)[k]?) ∧
  (∀ (A : Lanes) (s : List Byte) (i : Nat), i < 25 → (∀ j < 8, s.getD (8 * i + j) 0 = 0) → (xorIn A s).lane i = A.lane i) ∧
  (∀ A : Lanes, xorIn A [] = A)

/-- R153 with R150 and R151: read as bits, least significant first within each byte, the padded blocks are M || s || 1 || 0^j || 1 with the
least j that fills whole blocks, for every suffix of at most 7 bits; each block has R bytes. -/
def Obligations.PaddedBlocksAreTheBitRule : Prop :=
  ∀ (M : List Byte) (s : List Bool) (R : Nat), M.length < R → s.length ≤ 7 →
    bitString (padBlocks M R (delimitedSuffix s)).flatten = paddedStream M s R ∧
    (∀ P ∈ padBlocks M R (delimitedSuffix s), P.length = R) ∧
    (∃ k, (paddedStream M s R).length = 8 * R * k) ∧
    padZeros (8 * M.length + s.length) R < 8 * R

/-- The padded stream determines the message, for messages of any length (42_padding section 3, injectivity, which the spec derives). -/
def Obligations.PaddingIsInjective : Prop :=
  ∀ (M M' : List Byte) (s : List Bool) (R : Nat), 1 ≤ R → paddedStream M s R = paddedStream M' s R → M = M'

/-- The suffix bytes of the three families (42_padding section 1, R154's table, which the spec supplies from general knowledge): the
delimited suffix of 01 is 0x06, of 1111 is 0x1F, of nothing is 0x01, and these are the d of the rows. -/
def Obligations.SuffixBytesOfTheRows : Prop :=
  delimitedSuffix [false, true] = 0x06 ∧ delimitedSuffix [true, true, true, true] = 0x1F ∧ delimitedSuffix [] = 0x01 ∧
  (∀ (x : XofBlockSize) (row : VariantRow), row ∈ variantTable x →
    row.suffix = if row.digestSize = 0 then 0x1F else if 8 ≤ row.id.toNat then 0x01 else 0x06)

/-- The rows of the variant table (43_engine section 1, which the spec supplies from general knowledge): rate and capacity sum to 1600 bits,
fixed rows have capacity twice the digest and D < R, the rates are 72 to 168, and the ten assigned ids are those no command refuses. -/
def Obligations.VariantRowsAreConsistent : Prop :=
  ∀ (x : XofBlockSize),
    (∀ row ∈ variantTable x,
      8 * row.rate.toNat + 8 * capacityBytes row.rate.toNat = 1600 ∧ 72 ≤ row.rate.toNat ∧ row.rate.toNat ≤ 168 ∧
      (row.digestSize ≠ 0 →
        capacityBytes row.rate.toNat = 2 * row.digestSize.toNat ∧ row.digestSize.toNat < row.rate.toNat ∧
        8 * row.digestSize.toNat ∈ [224, 256, 384, 512] ∧ row.blockSize = row.rate) ∧
      (row.digestSize = 0 → row.blockSize = match x with | .na => 0 | .rate => row.rate)) ∧
    (∀ v : VariantId, tableRow (variantTable x) v = none ↔ v ∈ unassignedIds)

/-- NEW with an empty data string leaves the same contexts as NEW without data (30_encoding section 4, pseudo-commands, which the spec
derives). -/
def Obligations.NewWithEmptyDataIsNew : Prop :=
  ∀ (s : State) (c : CtxIndex) (v : VariantId) (row : VariantRow), StateWf s → c.toNat < s.nctx → tableRow s.table v = some row →
    ∃ t u, execAll (expandPseudo (.new c v none)) s = .next t ∧ execAll (expandPseudo (.new c v (some []))) s = .next u ∧
      u.ctx = t.ctx ∧ u.responses = t.responses ++ [⟨.ok, []⟩]
end

