-- ==== Sys2Proof/Laws/Assembly.lean ====
section
/-! SUPPORT. What the expansion of NEW gives, for data of any length (spec/30_encoding.md R82, R94). -/

namespace Sys2Proof.Machine

/-- Data that one UPDATE can carry is one piece (R94). -/
theorem payloadPieces_short {bytes : List Byte} (fuel : Nat) (h : bytes.length ≤ Config.lenMax) :
    payloadPieces fuel bytes = [bytes] := by
  cases fuel with
  | zero => rfl
  | succ fuel => rw [payloadPieces, if_pos h]

/-- Put together, the pieces are the data; and one UPDATE can carry each. -/
theorem payloadPieces_spec (fuel : Nat) (bytes : List Byte) (h : bytes.length ≤ fuel) :
    (payloadPieces fuel bytes).flatten = bytes ∧ ∀ p ∈ payloadPieces fuel bytes, p.length ≤ Config.lenMax := by
  induction fuel generalizing bytes with
  | zero =>
    have : bytes = [] := List.eq_nil_of_length_eq_zero (by omega)
    subst this
    simp [payloadPieces]
  | succ fuel ih =>
    by_cases hs : bytes.length ≤ Config.lenMax
    · simpa [payloadPieces_short _ hs] using hs
    · have hpos : 0 < Config.lenMax := by decide
      obtain ⟨hf, hl⟩ := ih (bytes.drop Config.lenMax) (by rw [List.length_drop]; omega)
      rw [payloadPieces, if_neg hs]
      refine ⟨by rw [List.flatten_cons, hf, List.take_append_drop], ?_⟩
      intro p hp
      rcases List.mem_cons.mp hp with rfl | hp
      · exact List.length_take_le _ _
      · exact hl p hp

/-- A payload that one UPDATE can carry makes a well-formed UPDATE. -/
theorem updateWith_wellFormed (c : CtxIndex) {payload : List Byte} (h : payload.length ≤ Config.lenMax) :
    (updateWith c payload).wellFormed = true := by
  have hm : Config.lenMax = 4294967295 := rfl
  simp only [updateWith, Instr.wellFormed, BitVec.toNat_ofNat, beq_iff_eq]
  omega

/-- Every command a pseudo-command stands for is well-formed, for data of any length. -/
theorem expandPseudo_wellFormed (p : Pseudo) : ∀ i ∈ expandPseudo p, i.wellFormed = true := by
  intro i hi
  match p, hi with
  | .new c v none, hi => rw [List.mem_singleton.mp hi]; rfl
  | .new c v (some bytes), hi =>
    rcases List.mem_cons.mp hi with rfl | hi
    · rfl
    · obtain ⟨q, hq, rfl⟩ := List.mem_map.mp hi
      exact updateWith_wellFormed c ((payloadPieces_spec _ _ (Nat.le_refl _)).2 q hq)
  | .hexdigest c, hi => rw [List.mem_singleton.mp hi]; rfl
  | .squeeze c n asHex, hi => rw [List.mem_singleton.mp hi]; rfl

end Sys2Proof.Machine
end

