-- ==== Sys2Proof/Laws/State.lean ====
section
/-! SUPPORT. The small lemmas of the state records: one per field per named update, each true by rfl, and what the operand and context
accessors give after each update. -/

namespace Sys2Proof.Machine

/-! ## Updates of the state -/

@[simp] theorem State.respond_ctx (s : State) (st : Status) (out : List Byte) : (s.respond st out).ctx = s.ctx := rfl
@[simp] theorem State.respond_table (s : State) (st : Status) (out : List Byte) : (s.respond st out).table = s.table := rfl
@[simp] theorem State.respond_input (s : State) (st : Status) (out : List Byte) : (s.respond st out).input = s.input := rfl
@[simp] theorem State.respond_responses (s : State) (st : Status) (out : List Byte) : (s.respond st out).responses = s.responses ++ [⟨st, out⟩] := rfl
@[simp] theorem State.respond_draws (s : State) (st : Status) (out : List Byte) : (s.respond st out).draws = s.draws := rfl

@[simp] theorem State.drawn_ctx (s : State) : (s.drawn).ctx = s.ctx := rfl
@[simp] theorem State.drawn_table (s : State) : (s.drawn).table = s.table := rfl
@[simp] theorem State.drawn_input (s : State) : (s.drawn).input = s.input := rfl
@[simp] theorem State.drawn_responses (s : State) : (s.drawn).responses = s.responses := rfl
@[simp] theorem State.drawn_draws (s : State) : (s.drawn).draws = s.draws + 1 := rfl

@[simp] theorem State.consumed_ctx (s : State) (rest : List Byte) : (s.consumed rest).ctx = s.ctx := rfl
@[simp] theorem State.consumed_table (s : State) (rest : List Byte) : (s.consumed rest).table = s.table := rfl
@[simp] theorem State.consumed_input (s : State) (rest : List Byte) : (s.consumed rest).input = rest := rfl
@[simp] theorem State.consumed_responses (s : State) (rest : List Byte) : (s.consumed rest).responses = s.responses := rfl
@[simp] theorem State.consumed_draws (s : State) (rest : List Byte) : (s.consumed rest).draws = s.draws := rfl

@[simp] theorem State.setContext_ctx (s : State) (c : CtxIndex) (C : Context) : (s.setContext c C).ctx = s.ctx.set c.toNat C := rfl
@[simp] theorem State.setContext_table (s : State) (c : CtxIndex) (C : Context) : (s.setContext c C).table = s.table := rfl
@[simp] theorem State.setContext_input (s : State) (c : CtxIndex) (C : Context) : (s.setContext c C).input = s.input := rfl
@[simp] theorem State.setContext_responses (s : State) (c : CtxIndex) (C : Context) : (s.setContext c C).responses = s.responses := rfl
@[simp] theorem State.setContext_draws (s : State) (c : CtxIndex) (C : Context) : (s.setContext c C).draws = s.draws := rfl

@[simp] theorem State.send_ctx (s : State) (bs : List Byte) : (s.send bs).ctx = s.ctx := rfl
@[simp] theorem State.send_table (s : State) (bs : List Byte) : (s.send bs).table = s.table := rfl
@[simp] theorem State.send_input (s : State) (bs : List Byte) : (s.send bs).input = s.input ++ bs := rfl
@[simp] theorem State.send_responses (s : State) (bs : List Byte) : (s.send bs).responses = s.responses := rfl
@[simp] theorem State.send_draws (s : State) (bs : List Byte) : (s.send bs).draws = s.draws := rfl

@[simp] theorem State.hardReset_ctx (s : State) : (s.hardReset).ctx = s.ctx.map fun _ => Context.reset := rfl
@[simp] theorem State.hardReset_table (s : State) : (s.hardReset).table = s.table := rfl
@[simp] theorem State.hardReset_input (s : State) : (s.hardReset).input = [] := rfl
@[simp] theorem State.hardReset_responses (s : State) : (s.hardReset).responses = s.responses := rfl
@[simp] theorem State.hardReset_draws (s : State) : (s.hardReset).draws = s.draws := rfl

@[simp] theorem State.withFetchWord_ctx (s : State) (nbits w : Nat) : (s.withFetchWord nbits w).ctx = s.ctx := rfl
@[simp] theorem State.withFetchWord_table (s : State) (nbits w : Nat) : (s.withFetchWord nbits w).table = s.table := rfl
@[simp] theorem State.withFetchWord_input (s : State) (nbits w : Nat) : (s.withFetchWord nbits w).input = tableBytes nbits w ++ s.input := rfl
@[simp] theorem State.withFetchWord_responses (s : State) (nbits w : Nat) : (s.withFetchWord nbits w).responses = s.responses := rfl
@[simp] theorem State.withFetchWord_draws (s : State) (nbits w : Nat) : (s.withFetchWord nbits w).draws = s.draws := rfl

/-! ## Updates of a context -/

@[simp] theorem Context.configure_mode (C : Context) (row : VariantRow) (q : Byte) : (C.configure row q).mode = .absorbing := rfl
@[simp] theorem Context.configure_var (C : Context) (row : VariantRow) (q : Byte) : (C.configure row q).var = row.id := rfl
@[simp] theorem Context.configure_rate (C : Context) (row : VariantRow) (q : Byte) : (C.configure row q).rate = row.rate := rfl
@[simp] theorem Context.configure_digestSize (C : Context) (row : VariantRow) (q : Byte) :
    (C.configure row q).digestSize =
      row.digestSize := rfl
@[simp] theorem Context.configure_suffix (C : Context) (row : VariantRow) (q : Byte) :
    (C.configure row q).suffix =
      row.suffix := rfl
@[simp] theorem Context.configure_blockSize (C : Context) (row : VariantRow) (q : Byte) :
    (C.configure row q).blockSize =
      row.blockSize := rfl
@[simp] theorem Context.configure_lanes (C : Context) (row : VariantRow) (q : Byte) : (C.configure row q).lanes = .zero := rfl
@[simp] theorem Context.configure_buf (C : Context) (row : VariantRow) (q : Byte) : (C.configure row q).buf = C.buf := rfl
@[simp] theorem Context.configure_buflen (C : Context) (row : VariantRow) (q : Byte) : (C.configure row q).buflen = 0 := rfl
@[simp] theorem Context.configure_sqpos (C : Context) (row : VariantRow) (q : Byte) : (C.configure row q).sqpos = q := rfl

@[simp] theorem Context.absorb_mode (C : Context) (P : List Byte) : (C.absorb P).mode = C.mode := rfl
@[simp] theorem Context.absorb_var (C : Context) (P : List Byte) : (C.absorb P).var = C.var := rfl
@[simp] theorem Context.absorb_rate (C : Context) (P : List Byte) : (C.absorb P).rate = C.rate := rfl
@[simp] theorem Context.absorb_digestSize (C : Context) (P : List Byte) : (C.absorb P).digestSize = C.digestSize := rfl
@[simp] theorem Context.absorb_suffix (C : Context) (P : List Byte) : (C.absorb P).suffix = C.suffix := rfl
@[simp] theorem Context.absorb_blockSize (C : Context) (P : List Byte) : (C.absorb P).blockSize = C.blockSize := rfl
@[simp] theorem Context.absorb_lanes (C : Context) (P : List Byte) :
    (C.absorb P).lanes =
      (absorbFull C.rate.toNat (C.pending ++ P).length C.lanes (C.pending ++ P)).1 := rfl
@[simp] theorem Context.absorb_buf (C : Context) (P : List Byte) :
    (C.absorb P).buf =
      writePrefix C.buf (absorbFull C.rate.toNat (C.pending ++ P).length C.lanes (C.pending ++ P)).2 := rfl
@[simp] theorem Context.absorb_buflen (C : Context) (P : List Byte) :
    (C.absorb P).buflen =
      BitVec.ofNat 8 (absorbFull C.rate.toNat (C.pending ++ P).length C.lanes (C.pending ++ P)).2.length := rfl
@[simp] theorem Context.absorb_sqpos (C : Context) (P : List Byte) : (C.absorb P).sqpos = C.sqpos := rfl

@[simp] theorem Context.startSqueezing_mode (C : Context) : (C.startSqueezing).mode = .squeezing := rfl
@[simp] theorem Context.startSqueezing_var (C : Context) : (C.startSqueezing).var = C.var := rfl
@[simp] theorem Context.startSqueezing_rate (C : Context) : (C.startSqueezing).rate = C.rate := rfl
@[simp] theorem Context.startSqueezing_digestSize (C : Context) : (C.startSqueezing).digestSize = C.digestSize := rfl
@[simp] theorem Context.startSqueezing_suffix (C : Context) : (C.startSqueezing).suffix = C.suffix := rfl
@[simp] theorem Context.startSqueezing_blockSize (C : Context) : (C.startSqueezing).blockSize = C.blockSize := rfl
@[simp] theorem Context.startSqueezing_lanes (C : Context) : (C.startSqueezing).lanes = C.finalized := rfl
@[simp] theorem Context.startSqueezing_buf (C : Context) : (C.startSqueezing).buf = C.buf := rfl
@[simp] theorem Context.startSqueezing_buflen (C : Context) : (C.startSqueezing).buflen = 0 := rfl
@[simp] theorem Context.startSqueezing_sqpos (C : Context) : (C.startSqueezing).sqpos = 0 := rfl

@[simp] theorem Context.afterSqueeze_mode (C : Context) (n : Nat) : (C.afterSqueeze n).mode = C.mode := rfl
@[simp] theorem Context.afterSqueeze_var (C : Context) (n : Nat) : (C.afterSqueeze n).var = C.var := rfl
@[simp] theorem Context.afterSqueeze_rate (C : Context) (n : Nat) : (C.afterSqueeze n).rate = C.rate := rfl
@[simp] theorem Context.afterSqueeze_digestSize (C : Context) (n : Nat) : (C.afterSqueeze n).digestSize = C.digestSize := rfl
@[simp] theorem Context.afterSqueeze_suffix (C : Context) (n : Nat) : (C.afterSqueeze n).suffix = C.suffix := rfl
@[simp] theorem Context.afterSqueeze_blockSize (C : Context) (n : Nat) : (C.afterSqueeze n).blockSize = C.blockSize := rfl
@[simp] theorem Context.afterSqueeze_lanes (C : Context) (n : Nat) : (C.afterSqueeze n).lanes = (C.squeezed n).lanes := rfl
@[simp] theorem Context.afterSqueeze_buf (C : Context) (n : Nat) : (C.afterSqueeze n).buf = C.buf := rfl
@[simp] theorem Context.afterSqueeze_buflen (C : Context) (n : Nat) : (C.afterSqueeze n).buflen = C.buflen := rfl
@[simp] theorem Context.afterSqueeze_sqpos (C : Context) (n : Nat) :
    (C.afterSqueeze n).sqpos =
      BitVec.ofNat 8 (C.squeezed n).pos := rfl

@[simp] theorem Context.copyFrom_mode (C S : Context) : (C.copyFrom S).mode = S.mode := rfl
@[simp] theorem Context.copyFrom_var (C S : Context) : (C.copyFrom S).var = S.var := rfl
@[simp] theorem Context.copyFrom_rate (C S : Context) : (C.copyFrom S).rate = S.rate := rfl
@[simp] theorem Context.copyFrom_digestSize (C S : Context) : (C.copyFrom S).digestSize = S.digestSize := rfl
@[simp] theorem Context.copyFrom_suffix (C S : Context) : (C.copyFrom S).suffix = S.suffix := rfl
@[simp] theorem Context.copyFrom_blockSize (C S : Context) : (C.copyFrom S).blockSize = S.blockSize := rfl
@[simp] theorem Context.copyFrom_lanes (C S : Context) : (C.copyFrom S).lanes = S.lanes := rfl
@[simp] theorem Context.copyFrom_buf (C S : Context) : (C.copyFrom S).buf = writePrefix C.buf S.pending := rfl
@[simp] theorem Context.copyFrom_buflen (C S : Context) : (C.copyFrom S).buflen = S.buflen := rfl
@[simp] theorem Context.copyFrom_sqpos (C S : Context) : (C.copyFrom S).sqpos = S.sqpos := rfl

@[simp] theorem Context.freed_mode (draw : Nat) : (Context.freed draw).mode = .unconfigured := rfl
@[simp] theorem Context.reset_mode : Context.reset.mode = .unconfigured := rfl

/-! ## Contexts of a state after an update -/

@[simp] theorem State.respond_context (s : State) (st : Status) (out : List Byte) (k : CtxIndex) :
    (s.respond st out).context k = s.context k := rfl
@[simp] theorem State.drawn_context (s : State) (k : CtxIndex) : s.drawn.context k = s.context k := rfl
@[simp] theorem State.consumed_context (s : State) (rest : List Byte) (k : CtxIndex) :
    (s.consumed rest).context k = s.context k := rfl
@[simp] theorem State.respond_nctx (s : State) (st : Status) (out : List Byte) : (s.respond st out).nctx = s.nctx := rfl
@[simp] theorem State.drawn_nctx (s : State) : s.drawn.nctx = s.nctx := rfl
@[simp] theorem State.consumed_nctx (s : State) (rest : List Byte) : (s.consumed rest).nctx = s.nctx := rfl
@[simp] theorem State.setContext_nctx (s : State) (c : CtxIndex) (C : Context) : (s.setContext c C).nctx = s.nctx := by
  simp [State.nctx]
@[simp] theorem State.setContext_row (s : State) (c : CtxIndex) (C : Context) (v : VariantId) :
    (s.setContext c C).row v = s.row v := rfl

/-- An index names a context exactly when it is below NCTX. -/
theorem State.context_isSome (s : State) (c : CtxIndex) : (s.context c).isSome = decide (c.toNat < s.nctx) := by
  by_cases h : c.toNat < s.ctx.length <;> simp [State.context, State.nctx, h]

/-- An index names no context exactly when it is not below NCTX. -/
theorem State.context_eq_none (s : State) (c : CtxIndex) : s.context c = none ↔ s.nctx ≤ c.toNat := by
  simp [State.context, State.nctx]

/-- A named context is one of the array's. -/
theorem State.context_mem {s : State} {c : CtxIndex} {C : Context} (h : s.context c = some C) : C ∈ s.ctx :=
  List.mem_of_getElem? h

/-- What a written context reads as, for an index below NCTX. -/
theorem State.setContext_context_self {s : State} {c : CtxIndex} {C D : Context} (h : s.context c = some C) :
    (s.setContext c D).context c = some D := by
  have hc : c.toNat < s.ctx.length := (List.getElem?_eq_some_iff.mp h).1
  simp [State.context, hc]

/-- A write of one context leaves every other as it was. -/
theorem State.setContext_context_ne (s : State) {c k : CtxIndex} (D : Context) (h : k ≠ c) :
    (s.setContext c D).context k = s.context k := by
  have hk : c.toNat ≠ k.toNat := fun e => h (BitVec.eq_of_toNat_eq e.symm)
  simp [State.context, hk]

/-- Writing back the context that is there changes nothing. -/
theorem State.setContext_same {s : State} {c : CtxIndex} {C : Context} (h : s.context c = some C) : s.setContext c C = s := by
  have h' := List.getElem?_eq_some_iff.mp h
  obtain ⟨hc, he⟩ := h'
  subst he
  simp [State.setContext]

/-- A context of the array after a write is the new one or was there before. -/
theorem State.mem_setContext {s : State} {c : CtxIndex} {C D : Context} (h : D ∈ (s.setContext c C).ctx) :
    D = C ∨ D ∈ s.ctx := by
  rcases List.mem_or_eq_of_mem_set h with h | h
  · exact .inr h
  · exact .inl h

end Sys2Proof.Machine
end

