-- ==== Sys2Proof/Laws/Bytes.lean ====
section
/-! SUPPORT. The byte view of the state (spec/20_memory.md R61): packing and unpacking lanes are inverse to each other, and what XorIn
does to the view (spec/41_sponge.md R131). -/

namespace Sys2Proof.Machine

/-! ## Bytes of an appended word -/

/-- Above the low byte, an appended word is the word it was appended to. -/
theorem extract_append_high {n : Nat} (x : BitVec n) (b : Byte) (k : Nat) :
    (x ++ b).extractLsb' (k + 8) 8 = x.extractLsb' k 8 := by
  ext i hi
  have h1 : ¬ k + 8 + i < 8 := by omega
  have h2 : k + 8 + i - 8 = k + i := by omega
  simp [BitVec.getLsbD_append, h1, h2]

/-- The low byte of an appended word is the byte appended. -/
theorem extract_append_low {n : Nat} (x : BitVec n) (b : Byte) : (x ++ b).extractLsb' 0 8 = b := by
  ext i hi
  simp [BitVec.getLsbD_append, hi]

/-! ## One lane -/

/-- The bytes of a lane put together from eight bytes are those bytes. -/
theorem laneBytes_append (b0 b1 b2 b3 b4 b5 b6 b7 : Byte) :
    laneBytes (b7 ++ b6 ++ b5 ++ b4 ++ b3 ++ b2 ++ b1 ++ b0 : BitVec 64) = [b0, b1, b2, b3, b4, b5, b6, b7] := by
  have high {n : Nat} (x : BitVec n) (b : Byte) (k j : Nat) (h : j = k + 8) :
      (x ++ b).extractLsb' j 8 = x.extractLsb' k 8 := h ▸ extract_append_high x b k
  simp only [laneBytes, extract_append_low, high _ _ 0 8 rfl, high _ _ 8 16 rfl, high _ _ 16 24 rfl, high _ _ 24 32 rfl,
    high _ _ 32 40 rfl, high _ _ 40 48 rfl, high _ _ 48 56 rfl, List.cons.injEq, true_and, and_true]
  exact BitVec.extractLsb'_eq_self

/-- A lane put together from its own bytes is the lane. -/
theorem append_laneBytes (a : Lane) :
    (a.extractLsb' 56 8 ++ a.extractLsb' 48 8 ++ a.extractLsb' 40 8 ++ a.extractLsb' 32 8 ++ a.extractLsb' 24 8 ++
      a.extractLsb' 16 8 ++ a.extractLsb' 8 8 ++ a.extractLsb' 0 8 : BitVec 64) = a := by
  rw [BitVec.extractLsb'_append_extractLsb'_eq_extractLsb' (by rfl),
    BitVec.extractLsb'_append_extractLsb'_eq_extractLsb' (by rfl),
    BitVec.extractLsb'_append_extractLsb'_eq_extractLsb' (by rfl),
    BitVec.extractLsb'_append_extractLsb'_eq_extractLsb' (by rfl),
    BitVec.extractLsb'_append_extractLsb'_eq_extractLsb' (by rfl),
    BitVec.extractLsb'_append_extractLsb'_eq_extractLsb' (by rfl),
    BitVec.extractLsb'_append_extractLsb'_eq_extractLsb' (by rfl)]
  exact BitVec.extractLsb'_eq_self

@[simp] theorem laneBytes_length (a : Lane) : (laneBytes a).length = 8 := rfl

/-! ## The whole state -/

@[simp] theorem Lanes.toList_length (A : Lanes) : A.toList.length = 25 := rfl

@[simp] theorem Lanes.ofList_toList (A : Lanes) : Lanes.ofList A.toList = A := rfl

/-- Any 25 lanes are those of a state. -/
theorem Lanes.toList_ofList {ls : List Lane} (h : ls.length = 25) : (Lanes.ofList ls).toList = ls := by
  match ls, h with
  | [a0, a1, a2, a3, a4, a5, a6, a7, a8, a9, a10, a11, a12, a13, a14, a15, a16, a17, a18, a19, a20, a21, a22, a23, a24], _ => rfl

/-- Two states with the same lanes are the same. -/
theorem Lanes.toList_inj {A B : Lanes} (h : A.toList = B.toList) : A = B := by
  have := congrArg Lanes.ofList h
  simpa using this

/-- Packing undoes unpacking. -/
theorem lanesOfBytes_flatMap (ls : List Lane) : lanesOfBytes (ls.flatMap laneBytes) = ls := by
  induction ls with
  | nil => rfl
  | cons a ls ih =>
    have : lanesOfBytes ((a :: ls).flatMap laneBytes) = a :: lanesOfBytes (ls.flatMap laneBytes) := by
      simp only [List.flatMap_cons, laneBytes, List.cons_append, List.nil_append, lanesOfBytes, append_laneBytes]
    rw [this, ih]

/-- Unpacking undoes packing, for a whole number of lanes. -/
theorem flatMap_lanesOfBytes (n : Nat) (T : List Byte) (h : T.length = 8 * n) : (lanesOfBytes T).flatMap laneBytes = T := by
  induction n generalizing T with
  | zero => simp at h; subst h; rfl
  | succ n ih =>
    match T, h with
    | b0 :: b1 :: b2 :: b3 :: b4 :: b5 :: b6 :: b7 :: rest, h =>
      have hr : rest.length = 8 * n := by simp at h; omega
      simp only [lanesOfBytes, List.flatMap_cons, ih rest hr, laneBytes_append]
      rfl

theorem lanesOfBytes_length (n : Nat) (T : List Byte) (h : T.length = 8 * n) : (lanesOfBytes T).length = n := by
  induction n generalizing T with
  | zero => simp at h; subst h; rfl
  | succ n ih =>
    match T, h with
    | b0 :: b1 :: b2 :: b3 :: b4 :: b5 :: b6 :: b7 :: rest, h =>
      have hr : rest.length = 8 * n := by simp at h; omega
      simp [lanesOfBytes, ih rest hr]

theorem flatMap_laneBytes_length (ls : List Lane) : (ls.flatMap laneBytes).length = 8 * ls.length := by
  induction ls with
  | nil => rfl
  | cons a ls ih => rw [List.flatMap_cons, List.length_append, ih, laneBytes_length, List.length_cons]; omega

/-- The view has 200 bytes. -/
@[simp] theorem stateBytes_length (A : Lanes) : (stateBytes A).length = 200 := by
  rw [stateBytes, flatMap_laneBytes_length, Lanes.toList_length]

/-- A state is known by its bytes. -/
@[simp] theorem ofStateBytes_stateBytes (A : Lanes) : ofStateBytes (stateBytes A) = A := by
  simp [ofStateBytes, stateBytes, lanesOfBytes_flatMap]

/-- Any 200 bytes are those of a state. -/
theorem stateBytes_ofStateBytes {T : List Byte} (h : T.length = 200) : stateBytes (ofStateBytes T) = T := by
  have hl : (lanesOfBytes T).length = 25 := lanesOfBytes_length 25 T h
  rw [stateBytes, ofStateBytes, Lanes.toList_ofList hl, flatMap_lanesOfBytes 25 T h]

/-! ## XorIn -/

@[simp] theorem xorBytes_nil (T : List Byte) : xorBytes T [] = T := by cases T <;> rfl

@[simp] theorem xorBytes_length (T s : List Byte) : (xorBytes T s).length = T.length := by
  induction T generalizing s with
  | nil => cases s <;> rfl
  | cons t T ih => cases s <;> simp [xorBytes, ih]

/-- Byte k of an exclusive or: T's byte, exclusive-ored where s has a byte. -/
theorem xorBytes_getElem? (T s : List Byte) (k : Nat) : (xorBytes T s)[k]? = T[k]?.map fun t => t ^^^ s.getD k 0 := by
  induction T generalizing s k with
  | nil => cases s <;> simp [xorBytes]
  | cons t T ih => cases s <;> cases k <;> simp [xorBytes, ih]

/-- The bytes of XorIn(A, s). -/
theorem stateBytes_xorIn (A : Lanes) (s : List Byte) : stateBytes (xorIn A s) = xorBytes (stateBytes A) s :=
  stateBytes_ofStateBytes (by simp)

/-- XorIn of the empty string is the identity (R131). -/
@[simp] theorem xorIn_nil (A : Lanes) : xorIn A [] = A := by simp [xorIn]

end Sys2Proof.Machine
end

