-- ==== Sys2Proof/Laws/Sponge.lean ====
section
/-! SUPPORT. What the loops of the sponge controller do (spec/41_sponge.md R132 to R136), as closed forms over the single-shot
functions of spec/43_engine_commands.md R170: one lemma a loop, which later proofs cite. -/

namespace Sys2Proof.Machine

/-! ## Absorbing -/

/-- Absorbing q + 1 blocks is absorbing the first, then q blocks of the rest. -/
theorem absorbBlocks_succ (R q : Nat) (A : Lanes) (M : List Byte) :
    absorbBlocks R (q + 1) A M = absorbBlocks R q (absorbBlock A (M.take R)) (M.drop R) := by
  have h (j : Nat) : (M.drop (Nat.succ j * R)).take R = ((M.drop R).drop (j * R)).take R := by
    rw [List.drop_drop, Nat.succ_mul, Nat.add_comm]
  rw [absorbBlocks, absorbBlocks, List.range_succ_eq_map, List.foldl_cons, List.foldl_map, Nat.zero_mul, List.drop_zero]
  simp only [h]

@[simp] theorem absorbBlocks_zero (R : Nat) (A : Lanes) (M : List Byte) : absorbBlocks R 0 A M = A := rfl

/-- The absorb loop absorbs every full block and leaves the remainder (43_engine R163). -/
theorem absorbFull_eq {R : Nat} (hR : 1 ≤ R) (fuel : Nat) (A : Lanes) (M : List Byte) (h : M.length ≤ fuel) :
    absorbFull R fuel A M = (absorbBlocks R (M.length / R) A M, M.drop (M.length / R * R)) := by
  induction fuel generalizing A M with
  | zero =>
    have : M = [] := List.eq_nil_of_length_eq_zero (by omega)
    subst this
    simp [absorbFull]
  | succ fuel ih =>
    by_cases hle : R ≤ M.length
    · have hlen : (M.drop R).length = M.length - R := List.length_drop
      have hq : M.length / R = (M.length - R) / R + 1 := by
        rw [Nat.div_eq M.length R, if_pos ⟨by omega, hle⟩]
      rw [absorbFull, if_pos hle, ih _ _ (by omega), hlen, hq, absorbBlocks_succ, List.drop_drop, Nat.succ_mul,
        Nat.add_comm R]
    · have hq : M.length / R = 0 := Nat.div_eq_of_lt (by omega)
      simp [absorbFull, hle, hq]

/-- Less than a block: nothing is absorbed. -/
theorem absorbFull_short {R : Nat} (fuel : Nat) (A : Lanes) (M : List Byte) (h : M.length < R) :
    absorbFull R fuel A M = (A, M) := by
  cases fuel with
  | zero => rfl
  | succ fuel => rw [absorbFull, if_neg (by omega)]

/-! ## The output stream -/

@[simp] theorem squeezeBlock_length {R : Nat} (hR : R ≤ 200) (A : Lanes) : (squeezeBlock R A).length = R := by
  rw [squeezeBlock, List.length_take, stateBytes_length, Nat.min_eq_left hR]

theorem keccakPower_succ (t : Nat) (A : Lanes) : keccakPower t (keccakF A) = keccakPower (t + 1) A := by
  induction t with
  | zero => rfl
  | succ t ih => rw [keccakPower, ih]; rfl

/-- The first k blocks of the output stream. -/
def streamBlocks (R k : Nat) (A : Lanes) : List Byte := (List.range k).flatMap fun t => squeezeBlock R (keccakPower t A)

theorem streamBlocks_succ (R k : Nat) (A : Lanes) :
    streamBlocks R (k + 1) A = squeezeBlock R A ++ streamBlocks R k (keccakF A) := by
  simp only [streamBlocks, List.range_succ_eq_map, List.flatMap_cons, List.flatMap_map, keccakPower_succ]
  rfl

theorem streamBlocks_length {R : Nat} (hR : R ≤ 200) (k : Nat) (A : Lanes) : (streamBlocks R k A).length = k * R := by
  induction k generalizing A with
  | zero => simp [streamBlocks]
  | succ k ih => rw [streamBlocks_succ, List.length_append, ih, squeezeBlock_length hR, Nat.succ_mul, Nat.add_comm]

theorem streamPrefix_eq_take (R : Nat) (A : Lanes) (n : Nat) : streamPrefix R A n = (streamBlocks R (n / R + 1) A).take n := rfl

/-- A prefix of n bytes has n bytes. -/
theorem streamPrefix_length {R : Nat} (hR1 : 1 ≤ R) (hR : R ≤ 200) (A : Lanes) (n : Nat) : (streamPrefix R A n).length = n := by
  have := Nat.lt_div_mul_add (a := n) (b := R) hR1
  rw [streamPrefix_eq_take, List.length_take, streamBlocks_length hR, Nat.succ_mul]
  omega

/-- Up to a block, the stream is the bytes of the state. -/
theorem streamPrefix_short {R : Nat} (hR : R ≤ 200) (A : Lanes) {n : Nat} (h : n ≤ R) :
    streamPrefix R A n = (stateBytes A).take n := by
  rw [streamPrefix_eq_take, streamBlocks_succ, List.take_append_of_le_length (by simpa [squeezeBlock_length hR] using h), squeezeBlock,
    List.take_take, Nat.min_eq_left h]

/-- Past a block, the stream is the block and then the stream of the permuted state. -/
theorem streamPrefix_long {R : Nat} (hR1 : 1 ≤ R) (hR : R ≤ 200) (A : Lanes) {n : Nat} (h : R ≤ n) :
    streamPrefix R A n = squeezeBlock R A ++ streamPrefix R (keccakF A) (n - R) := by
  have hq : n / R = (n - R) / R + 1 := by
    rw [Nat.div_eq n R, if_pos ⟨by omega, h⟩]
  rw [streamPrefix_eq_take, streamPrefix_eq_take, hq, streamBlocks_succ, List.take_append, squeezeBlock_length hR,
    List.take_of_length_le (by simpa [squeezeBlock_length hR] using h)]

/-- A shorter prefix is a prefix of a longer one. -/
theorem streamPrefix_take {R : Nat} (hR1 : 1 ≤ R) (hR : R ≤ 200) (A : Lanes) {m n : Nat} (h : m ≤ n) :
    (streamPrefix R A n).take m = streamPrefix R A m := by
  induction n using Nat.strongRecOn generalizing A m with
  | ind n ih =>
    by_cases hn : n ≤ R
    · rw [streamPrefix_short hR A hn, streamPrefix_short hR A (by omega), List.take_take, Nat.min_eq_left h]
    · rw [streamPrefix_long hR1 hR A (by omega : R ≤ n), List.take_append, squeezeBlock_length hR]
      by_cases hm : m ≤ R
      · rw [Nat.sub_eq_zero_of_le hm, List.take_zero, List.append_nil, streamPrefix_short hR A hm, squeezeBlock, List.take_take,
          Nat.min_eq_left hm]
      · rw [ih (n - R) (by omega) (keccakF A) (by omega), streamPrefix_long hR1 hR A (by omega : R ≤ m),
          List.take_of_length_le (by rw [squeezeBlock_length hR]; omega)]

/-! ## Squeezing -/

/-- The squeeze loop outputs the next n bytes of the stream and leaves the state and cursor of the block it stopped in; it permutes
only when another byte is wanted (R136). -/
theorem squeezeLoop_eq {R : Nat} (hR1 : 1 ≤ R) (hR : R ≤ 200) (fuel n : Nat) (A : Lanes) (pos : Nat) (hf : n ≤ fuel) (hp : pos ≤ R) :
    squeezeLoop R fuel n A pos =
      ⟨(streamPrefix R A (pos + n)).drop pos, keccakPower ((pos + n - 1) / R) A, pos + n - R * ((pos + n - 1) / R)⟩ := by
  have stop (A : Lanes) (pos : Nat) (hp : pos ≤ R) : (⟨[], A, pos⟩ : Squeezed) =
      ⟨(streamPrefix R A (pos + 0)).drop pos, keccakPower ((pos + 0 - 1) / R) A, pos + 0 - R * ((pos + 0 - 1) / R)⟩ := by
    have h0 : (pos + 0 - 1) / R = 0 := Nat.div_eq_of_lt (by omega)
    have h1 : (streamPrefix R A (pos + 0)).drop pos = [] :=
      List.drop_eq_nil_of_le (by rw [streamPrefix_length hR1 hR]; omega)
    rw [h0, h1]
    rfl
  induction fuel generalizing n A pos with
  | zero =>
    have : n = 0 := by omega
    subst this
    exact stop A pos hp
  | succ fuel ih =>
    by_cases hn : n = 0
    · subst hn
      rw [squeezeLoop, if_pos rfl]
      exact stop A pos hp
    · rw [squeezeLoop, if_neg hn]
      by_cases hpos : pos = R
      · subst hpos
        have hk : min n (pos - 0) = min n pos := by simp
        simp only [if_true, squeezeMore, hk, Nat.zero_add, List.drop_zero]
        rw [ih (n - min n pos) (keccakF A) (min n pos) (by omega) (by omega)]
        have e1 : min n pos + (n - min n pos) = n := by omega
        have e2 : (pos + n - 1) / pos = (n - 1) / pos + 1 := by
          rw [show pos + n - 1 = (n - 1) + pos by omega, Nat.add_div_right _ hR1]
        rw [e1, e2, ← keccakPower_succ, Nat.mul_add, Nat.mul_one, streamPrefix_long hR1 hR A (by omega : pos ≤ pos + n),
          List.drop_left' (squeezeBlock_length hR A), Nat.add_sub_cancel_left]
        have e3 : (stateBytes (keccakF A)).take (min n pos) = (streamPrefix pos (keccakF A) n).take (min n pos) := by
          rw [streamPrefix_take hR1 hR _ (by omega), streamPrefix_short hR _ (by omega)]
        have e4 : pos + n - (pos * ((n - 1) / pos) + pos) = n - pos * ((n - 1) / pos) := by omega
        simp only [e3, List.take_append_drop, e4]
      · simp only [if_neg hpos]
        have hk : 1 ≤ min n (R - pos) := by omega
        rw [ih (n - min n (R - pos)) A (pos + min n (R - pos)) (by omega) (by omega)]
        have e1 : pos + min n (R - pos) + (n - min n (R - pos)) = pos + n := by omega
        rw [e1]
        have e3 : ((stateBytes A).drop pos).take (min n (R - pos)) =
            ((streamPrefix R A (pos + n)).drop pos).take (min n (R - pos)) := by
          rw [List.take_drop, List.take_drop, streamPrefix_take hR1 hR _ (by omega), streamPrefix_short hR _ (by omega)]
        rw [e3, ← List.drop_drop, List.take_append_drop]

/-- SqueezeOut in closed form (R136). -/
theorem squeezeOut_eq {R : Nat} (hR1 : 1 ≤ R) (hR : R ≤ 200) (n : Nat) (A : Lanes) (pos : Nat) (hp : pos ≤ R) :
    squeezeOut R n A pos =
      ⟨(streamPrefix R A (pos + n)).drop pos, keccakPower ((pos + n - 1) / R) A, pos + n - R * ((pos + n - 1) / R)⟩ :=
  squeezeLoop_eq hR1 hR n n A pos (Nat.le_refl n) hp

/-- The digest loop outputs a prefix of the stream (R135). -/
theorem digestMore_eq {R : Nat} (hR1 : 1 ≤ R) (hR : R ≤ 200) (D fuel : Nat) (A : Lanes) (t : Nat)
    (hf : D ≤ (fuel + t + 1) * R) :
    (digestMore R D fuel (keccakPower t A) (streamBlocks R (t + 1) A)).take D = streamPrefix R A D := by
  have enough (t : Nat) (h : D ≤ (t + 1) * R) : (streamBlocks R (t + 1) A).take D = streamPrefix R A D := by
    have hb : streamBlocks R (t + 1) A = streamPrefix R A ((t + 1) * R) := by
      have hq : (t + 1) * R / R = t + 1 := Nat.mul_div_cancel _ hR1
      rw [streamPrefix_eq_take, hq]
      have : streamBlocks R (t + 1 + 1) A = streamBlocks R (t + 1) A ++ squeezeBlock R (keccakPower (t + 1) A) := by
        simp [streamBlocks, List.range_succ, List.flatMap_append]
      rw [this, List.take_left' (streamBlocks_length hR _ _)]
    rw [hb, streamPrefix_take hR1 hR A h]
  induction fuel generalizing t with
  | zero => exact enough t (by simpa using hf)
  | succ fuel ih =>
    rw [digestMore, streamBlocks_length hR]
    by_cases h : (t + 1) * R < D
    · rw [if_pos h]
      have hs : streamBlocks R (t + 1) A ++ squeezeBlock R (keccakF (keccakPower t A)) = streamBlocks R (t + 1 + 1) A := by
        rw [streamBlocks, streamBlocks, List.range_succ (n := t + 1), List.flatMap_append]
        simp [keccakPower]
      have hk : keccakF (keccakPower t A) = keccakPower (t + 1) A := rfl
      simp only [squeezeMore]
      rw [hs, hk]
      exact ih (t + 1) (by rw [show fuel + (t + 1) + 1 = fuel + 1 + t + 1 by omega]; exact hf)
    · rw [if_neg h]
      exact enough t (by omega)

/-- DigestOut in closed form (R135): the first D bytes of the stream. -/
theorem digestOut_eq {R : Nat} (hR1 : 1 ≤ R) (hR : R ≤ 200) (D : Nat) (A : Lanes) : digestOut R D A = streamPrefix R A D := by
  have h1 : squeezeBlock R A = streamBlocks R (0 + 1) A := by simp [streamBlocks, keccakPower]
  have hD : D ≤ (D + 0 + 1) * R := Nat.le_trans (by omega) (Nat.le_mul_of_pos_right _ hR1)
  rw [digestOut, h1]
  exact digestMore_eq hR1 hR D D A 0 hD

end Sys2Proof.Machine
end

