-- ==== Sys2Proof/Laws/Engine.lean ====
section
/-! SUPPORT. What the operations on one context do (spec/43_engine_commands.md R162 to R168): the buffer, and the closed forms of UPDATE,
DIGEST and SQUEEZE on a context. -/

namespace Sys2Proof.Machine

/-! ## The buffer -/

theorem writePrefix_toList (buf : Vector Byte Config.bufBytes) (M : List Byte) :
    (writePrefix buf M).toList = M.take Config.bufBytes ++ buf.toList.drop M.length := rfl

/-- The written bytes read back, where they fit the buffer. -/
theorem writePrefix_take (buf : Vector Byte Config.bufBytes) {M : List Byte} (h : M.length ≤ Config.bufBytes) :
    (writePrefix buf M).toList.take M.length = M := by
  rw [writePrefix_toList, List.take_of_length_le h, List.take_left]

/-- Writing the first bytes back changes nothing. -/
theorem writePrefix_self (buf : Vector Byte Config.bufBytes) {n : Nat} (h : n ≤ Config.bufBytes) :
    writePrefix buf (buf.toList.take n) = buf := by
  apply Vector.toList_inj.mp
  have hl : (buf.toList.take n).length = n := by simp [h]
  rw [writePrefix_toList, hl, List.take_of_length_le (by omega), List.take_append_drop]

/-- The valid bytes of a buffer are BUFLEN of them. -/
theorem Context.pending_length {C : Context} (h : C.buflen.toNat ≤ Config.bufBytes) : C.pending.length = C.buflen.toNat := by
  simp [Context.pending, h]

/-- An empty buffer holds nothing. -/
theorem Context.pending_empty {C : Context} (h : C.buflen = 0) : C.pending = [] := by
  simp [Context.pending, h]

@[simp] theorem Context.pending_configure (C : Context) (row : VariantRow) (q : Byte) : (C.configure row q).pending = [] :=
  Context.pending_empty rfl

@[simp] theorem Context.pending_startSqueezing (C : Context) : C.startSqueezing.pending = [] := Context.pending_empty rfl

@[simp] theorem Context.pending_afterSqueeze (C : Context) (n : Nat) : (C.afterSqueeze n).pending = C.pending := rfl

/-- A copy holds the source's valid bytes (R166). -/
theorem Context.pending_copyFrom (C : Context) {S : Context} (h : S.buflen.toNat ≤ Config.bufBytes) :
    (C.copyFrom S).pending = S.pending := by
  have hl := Context.pending_length h
  have hw := writePrefix_take C.buf (M := S.pending) (by omega)
  rw [hl] at hw
  exact hw

/-! ## UPDATE on a context -/

/-- What UPDATE leaves of a context of rate 1 ≤ R ≤ 168 (R163): the full blocks of the buffered bytes and the payload absorbed, and the
remainder buffered. -/
theorem Context.absorb_eq {C : Context} (hR1 : 1 ≤ C.rate.toNat) (hR : C.rate.toNat ≤ Config.rateMax) (P : List Byte) :
    (C.absorb P).lanes = absorbBlocks C.rate.toNat ((C.pending ++ P).length / C.rate.toNat) C.lanes (C.pending ++ P) ∧
    (C.absorb P).pending = (C.pending ++ P).drop ((C.pending ++ P).length / C.rate.toNat * C.rate.toNat) ∧
    (C.absorb P).buflen.toNat = (C.pending ++ P).length % C.rate.toNat := by
  have hf := absorbFull_eq hR1 (C.pending ++ P).length C.lanes (C.pending ++ P) (Nat.le_refl _)
  have hlen : ((C.pending ++ P).drop ((C.pending ++ P).length / C.rate.toNat * C.rate.toNat)).length =
      (C.pending ++ P).length % C.rate.toNat := by
    rw [List.length_drop, Nat.mod_eq_sub_div_mul]
  have hlt : (C.pending ++ P).length % C.rate.toNat < C.rate.toNat := Nat.mod_lt _ hR1
  have hb : Config.rateMax = 168 := rfl
  have hB : Config.bufBytes = 167 := rfl
  have hbl : (C.absorb P).buflen.toNat = (C.pending ++ P).length % C.rate.toNat := by
    rw [Context.absorb_buflen, hf]
    simp only [hlen, BitVec.toNat_ofNat]
    exact Nat.mod_eq_of_lt (by omega)
  refine ⟨by rw [Context.absorb_lanes, hf], ?_, hbl⟩
  rw [Context.pending, hbl, Context.absorb_buf, hf]
  simp only
  rw [← hlen]
  exact writePrefix_take C.buf (by omega)

/-- An UPDATE that brings no byte changes nothing of a context whose buffer is short of a block (R163, LEN = 0). -/
theorem Context.absorb_nil {C : Context} (hR : C.rate.toNat ≤ Config.rateMax) (hlt : C.buflen.toNat < C.rate.toNat) :
    C.absorb [] = C := by
  have hb : Config.rateMax = 168 := rfl
  have hB : Config.bufBytes = 167 := rfl
  have hl : C.pending.length = C.buflen.toNat := Context.pending_length (by omega)
  have hf : absorbFull C.rate.toNat (C.pending ++ []).length C.lanes (C.pending ++ []) = (C.lanes, C.pending) := by
    rw [List.append_nil]
    exact absorbFull_short _ _ _ (by omega)
  have hw : writePrefix C.buf C.pending = C.buf := writePrefix_self C.buf (by omega)
  have hbl : BitVec.ofNat 8 C.pending.length = C.buflen := by
    rw [hl]
    exact BitVec.ofNat_toNat _ _ |>.trans (by simp)
  simp only [Context.absorb, hf, hw, hbl]

/-! ## DIGEST and SQUEEZE on a context -/

/-- The digest is the first D bytes of the stream of the finalized state (R164). -/
theorem Context.digest_eq {C : Context} (hR1 : 1 ≤ C.rate.toNat) (hR : C.rate.toNat ≤ Config.rateMax) :
    C.digest = streamPrefix C.rate.toNat C.finalized C.digestSize.toNat :=
  digestOut_eq hR1 (Nat.le_trans hR (by decide)) _ _

/-- SqueezeOut on a context (41_sponge R136). -/
theorem Context.squeezed_eq {C : Context} (hR1 : 1 ≤ C.rate.toNat) (hR : C.rate.toNat ≤ Config.rateMax)
    (hp : C.sqpos.toNat ≤ C.rate.toNat) (n : Nat) :
    C.squeezed n =
      ⟨(streamPrefix C.rate.toNat C.lanes (C.sqpos.toNat + n)).drop C.sqpos.toNat,
        keccakPower ((C.sqpos.toNat + n - 1) / C.rate.toNat) C.lanes,
        C.sqpos.toNat + n - C.rate.toNat * ((C.sqpos.toNat + n - 1) / C.rate.toNat)⟩ :=
  squeezeOut_eq hR1 (Nat.le_trans hR (by decide)) n C.lanes _ hp

/-- The context SQUEEZE draws from is SQUEEZING, where it was configured. -/
theorem Context.readyToSqueeze_mode {C : Context} (h : C.mode ≠ .unconfigured) : C.readyToSqueeze.mode = .squeezing := by
  unfold Context.readyToSqueeze
  split <;> simp_all

@[simp] theorem Context.readyToSqueeze_rate (C : Context) : C.readyToSqueeze.rate = C.rate := by
  unfold Context.readyToSqueeze
  split <;> rfl

@[simp] theorem Context.readyToSqueeze_var (C : Context) : C.readyToSqueeze.var = C.var := by
  unfold Context.readyToSqueeze
  split <;> rfl

@[simp] theorem Context.readyToSqueeze_digestSize (C : Context) : C.readyToSqueeze.digestSize = C.digestSize := by
  unfold Context.readyToSqueeze
  split <;> rfl

@[simp] theorem Context.readyToSqueeze_suffix (C : Context) : C.readyToSqueeze.suffix = C.suffix := by
  unfold Context.readyToSqueeze
  split <;> rfl

@[simp] theorem Context.readyToSqueeze_blockSize (C : Context) : C.readyToSqueeze.blockSize = C.blockSize := by
  unfold Context.readyToSqueeze
  split <;> rfl

@[simp] theorem Context.readyToSqueeze_buf (C : Context) : C.readyToSqueeze.buf = C.buf := by
  unfold Context.readyToSqueeze
  split <;> rfl

end Sys2Proof.Machine
end

