-- ==== Sys2Proof/Laws/Commands.lean ====
section
/-! SUPPORT. What each meaning can do, said once: the cases in which it answers, each with the state it leaves. Later proofs cite these and
do not unfold a meaning. -/

namespace Sys2Proof.Machine

theorem complete_eq (out : List Byte) (s : State) : complete out s = .next (s.respond .ok out) := rfl

theorem raise_eq (st : Status) (s : State) : raise st s = .next (s.respond st []) := rfl

/-- INIT: BAD_CONTEXT, CONFIG_ERROR, or the context configured. -/
theorem execInit_cases (c : CtxIndex) (v : VariantId) (s : State) :
    (s.context c = none ∧ execInit c v s = .next (s.respond .badContext [])) ∨
    (∃ C, s.context c = some C ∧ s.row v = none ∧ execInit c v s = .next (s.respond .configError [])) ∨
    (∃ C row, s.context c = some C ∧ s.row v = some row ∧
      execInit c v s = .next ((s.setContext c (C.configure row (freeSqpos s.draws))).drawn.respond .ok [])) := by
  cases hc : s.context c with
  | none => exact .inl ⟨rfl, by simp [execInit, hc, raise_eq]⟩
  | some C =>
    cases hv : s.row v with
    | none => exact .inr (.inl ⟨C, rfl, rfl, by simp [execInit, hc, hv, raise_eq]⟩)
    | some row => exact .inr (.inr ⟨C, row, rfl, rfl, by simp [execInit, hc, hv, complete_eq]⟩)

/-- UPDATE: BAD_CONTEXT, UNCONFIGURED, STATE_ERROR, or the payload absorbed. -/
theorem execUpdate_cases (c : CtxIndex) (len : Word) (payload : List Byte) (s : State) :
    (s.context c = none ∧ execUpdate c len payload s = .next (s.respond .badContext [])) ∨
    (∃ C, s.context c = some C ∧ C.mode = .unconfigured ∧ execUpdate c len payload s = .next (s.respond .unconfigured [])) ∨
    (∃ C, s.context c = some C ∧ C.mode = .squeezing ∧ execUpdate c len payload s = .next (s.respond .stateError [])) ∨
    (∃ C, s.context c = some C ∧ C.mode = .absorbing ∧
      execUpdate c len payload s = .next ((s.setContext c (C.absorb (memRead payload 0 len.toNat))).respond .ok [])) := by
  cases hc : s.context c with
  | none => exact .inl ⟨rfl, by simp [execUpdate, hc, raise_eq]⟩
  | some C =>
    cases hm : C.mode with
    | unconfigured => exact .inr (.inl ⟨C, rfl, hm, by simp [execUpdate, hc, hm, raise_eq]⟩)
    | squeezing => exact .inr (.inr (.inl ⟨C, rfl, hm, by simp [execUpdate, hc, hm, raise_eq]⟩))
    | absorbing => exact .inr (.inr (.inr ⟨C, rfl, hm, by simp [execUpdate, hc, hm, complete_eq]⟩))

/-- DIGEST: BAD_CONTEXT, UNCONFIGURED, STATE_ERROR, or the digest output and nothing written. -/
theorem execDigest_cases (c : CtxIndex) (hex : Bool) (s : State) :
    (s.context c = none ∧ execDigest c hex s = .next (s.respond .badContext [])) ∨
    (∃ C, s.context c = some C ∧ C.mode = .unconfigured ∧ execDigest c hex s = .next (s.respond .unconfigured [])) ∨
    (∃ C, s.context c = some C ∧ C.mode ≠ .unconfigured ∧ C.digestSize = 0 ∧
      execDigest c hex s = .next (s.respond .stateError [])) ∨
    (∃ C, s.context c = some C ∧ C.mode ≠ .unconfigured ∧ C.digestSize ≠ 0 ∧
      execDigest c hex s = .next (s.respond .ok (outputForm hex C.digest))) := by
  cases hc : s.context c with
  | none => exact .inl ⟨rfl, by simp [execDigest, hc, raise_eq]⟩
  | some C =>
    by_cases hm : C.mode = .unconfigured
    · exact .inr (.inl ⟨C, rfl, hm, by simp [execDigest, hc, hm, raise_eq]⟩)
    · by_cases hd : C.digestSize = 0
      · refine .inr (.inr (.inl ⟨C, rfl, hm, hd, ?_⟩))
        cases h : C.mode <;> simp_all [execDigest, raise_eq]
      · refine .inr (.inr (.inr ⟨C, rfl, hm, hd, ?_⟩))
        cases h : C.mode <;> simp_all [execDigest, complete_eq]

/-- SQUEEZE: BAD_CONTEXT, UNCONFIGURED, STATE_ERROR, or the next N bytes output. -/
theorem execSqueeze_cases (c : CtxIndex) (hex : Bool) (n : Word) (s : State) :
    (s.context c = none ∧ execSqueeze c hex n s = .next (s.respond .badContext [])) ∨
    (∃ C, s.context c = some C ∧ C.mode = .unconfigured ∧ execSqueeze c hex n s = .next (s.respond .unconfigured [])) ∨
    (∃ C, s.context c = some C ∧ C.mode ≠ .unconfigured ∧ C.digestSize ≠ 0 ∧
      execSqueeze c hex n s = .next (s.respond .stateError [])) ∨
    (∃ C, s.context c = some C ∧ C.mode ≠ .unconfigured ∧ C.digestSize = 0 ∧
      execSqueeze c hex n s =
        .next ((s.setContext c (C.readyToSqueeze.afterSqueeze n.toNat)).respond .ok
          (outputForm hex (C.readyToSqueeze.squeezed n.toNat).out))) := by
  cases hc : s.context c with
  | none => exact .inl ⟨rfl, by simp [execSqueeze, hc, raise_eq]⟩
  | some C =>
    by_cases hm : C.mode = .unconfigured
    · exact .inr (.inl ⟨C, rfl, hm, by simp [execSqueeze, hc, hm, raise_eq]⟩)
    · by_cases hd : C.digestSize = 0
      · refine .inr (.inr (.inr ⟨C, rfl, hm, hd, ?_⟩))
        cases h : C.mode <;> simp_all [execSqueeze, complete_eq]
      · refine .inr (.inr (.inl ⟨C, rfl, hm, hd, ?_⟩))
        cases h : C.mode <;> simp_all [execSqueeze, raise_eq]

/-- COPY: BAD_CONTEXT, UNCONFIGURED (the source), nothing changed (onto itself), or the destination written. -/
theorem execCopy_cases (dst src : CtxIndex) (s : State) :
    ((s.context dst = none ∨ s.context src = none) ∧ execCopy dst src s = .next (s.respond .badContext [])) ∨
    (∃ C S, s.context dst = some C ∧ s.context src = some S ∧ S.mode = .unconfigured ∧
      execCopy dst src s = .next (s.respond .unconfigured [])) ∨
    (∃ C S, s.context dst = some C ∧ s.context src = some S ∧ S.mode ≠ .unconfigured ∧ dst = src ∧
      execCopy dst src s = .next (s.respond .ok [])) ∨
    (∃ C S, s.context dst = some C ∧ s.context src = some S ∧ S.mode ≠ .unconfigured ∧ dst ≠ src ∧
      execCopy dst src s = .next ((s.setContext dst (C.copyFrom S)).respond .ok [])) := by
  cases hc : s.context dst with
  | none => exact .inl ⟨.inl rfl, by simp [execCopy, hc, raise_eq]⟩
  | some C =>
    cases hs : s.context src with
    | none => exact .inl ⟨.inr rfl, by simp [execCopy, hc, hs, raise_eq]⟩
    | some S =>
      by_cases hm : S.mode = .unconfigured
      · exact .inr (.inl ⟨C, S, rfl, rfl, hm, by simp [execCopy, hc, hs, hm, raise_eq]⟩)
      · by_cases he : dst = src
        · refine .inr (.inr (.inl ⟨C, S, rfl, rfl, hm, he, ?_⟩))
          cases h : S.mode <;> simp_all [execCopy, complete_eq]
        · refine .inr (.inr (.inr ⟨C, S, rfl, rfl, hm, he, ?_⟩))
          cases h : S.mode <;> simp_all [execCopy, complete_eq]

/-- FREE: BAD_CONTEXT, nothing changed (an UNCONFIGURED context), or the context freed. -/
theorem execFree_cases (c : CtxIndex) (s : State) :
    (s.context c = none ∧ execFree c s = .next (s.respond .badContext [])) ∨
    (∃ C, s.context c = some C ∧ C.mode = .unconfigured ∧ execFree c s = .next (s.respond .ok [])) ∨
    (∃ C, s.context c = some C ∧ C.mode ≠ .unconfigured ∧
      execFree c s = .next ((s.setContext c (Context.freed s.draws)).drawn.respond .ok [])) := by
  cases hc : s.context c with
  | none => exact .inl ⟨rfl, by simp [execFree, hc, raise_eq]⟩
  | some C =>
    by_cases hm : C.mode = .unconfigured
    · exact .inr (.inl ⟨C, rfl, hm, by simp [execFree, hc, hm, complete_eq]⟩)
    · refine .inr (.inr ⟨C, rfl, hm, ?_⟩)
      cases h : C.mode <;> simp_all [execFree, complete_eq]

/-- QUERY: BAD_CONTEXT, or CTXINFO output and nothing written. -/
theorem execQuery_cases (c : CtxIndex) (s : State) :
    (s.context c = none ∧ execQuery c s = .next (s.respond .badContext [])) ∨
    (∃ C, s.context c = some C ∧ execQuery c s = .next (s.respond .ok C.info)) := by
  cases hc : s.context c with
  | none => exact .inl ⟨rfl, by simp [execQuery, hc, raise_eq]⟩
  | some C => exact .inr ⟨C, rfl, by simp [execQuery, hc, complete_eq]⟩

/-- Any command: it only answers, with no output where the status is not OK; or it writes the one context it may write, takes free
values at most, and answers OK. -/
theorem exec_cases (i : Instr) (s : State) :
    (∃ st out, exec i s = .next (s.respond st out) ∧ (st ≠ .ok → out = [])) ∨
    (∃ c C D out n, Safety.writtenContext i = some c ∧ s.context c = some C ∧
      exec i s = .next (State.respond { s with ctx := s.ctx.set c.toNat D, draws := n } .ok out)) := by
  cases i with
  | init c v =>
    rcases execInit_cases c v s with ⟨_, h⟩ | ⟨_, _, _, h⟩ | ⟨C, _, hC, _, h⟩
    · exact .inl ⟨_, _, h, by simp⟩
    · exact .inl ⟨_, _, h, by simp⟩
    · exact .inr ⟨c, C, _, _, _, rfl, hC, h⟩
  | update c l p =>
    rcases execUpdate_cases c l p s with ⟨_, h⟩ | ⟨_, _, _, h⟩ | ⟨_, _, _, h⟩ | ⟨C, hC, _, h⟩
    · exact .inl ⟨_, _, h, by simp⟩
    · exact .inl ⟨_, _, h, by simp⟩
    · exact .inl ⟨_, _, h, by simp⟩
    · exact .inr ⟨c, C, _, _, _, rfl, hC, h⟩
  | digest c x =>
    rcases execDigest_cases c x s with ⟨_, h⟩ | ⟨_, _, _, h⟩ | ⟨_, _, _, _, h⟩ | ⟨C, hC, _, _, h⟩
    · exact .inl ⟨_, _, h, by simp⟩
    · exact .inl ⟨_, _, h, by simp⟩
    · exact .inl ⟨_, _, h, by simp⟩
    · exact .inl ⟨_, _, h, by simp⟩
  | squeeze c x n =>
    rcases execSqueeze_cases c x n s with ⟨_, h⟩ | ⟨_, _, _, h⟩ | ⟨_, _, _, _, h⟩ | ⟨C, hC, _, _, h⟩
    · exact .inl ⟨_, _, h, by simp⟩
    · exact .inl ⟨_, _, h, by simp⟩
    · exact .inl ⟨_, _, h, by simp⟩
    · exact .inr ⟨c, C, _, _, _, rfl, hC, h⟩
  | copy a b =>
    rcases execCopy_cases a b s with ⟨_, h⟩ | ⟨_, _, _, _, _, h⟩ | ⟨_, _, _, _, _, _, h⟩ | ⟨C, _, hC, _, _, _, h⟩
    · exact .inl ⟨_, _, h, by simp⟩
    · exact .inl ⟨_, _, h, by simp⟩
    · exact .inl ⟨_, _, h, by simp⟩
    · exact .inr ⟨a, C, _, _, _, rfl, hC, h⟩
  | free c =>
    rcases execFree_cases c s with ⟨_, h⟩ | ⟨_, _, _, h⟩ | ⟨C, hC, _, h⟩
    · exact .inl ⟨_, _, h, by simp⟩
    · exact .inl ⟨_, _, h, by simp⟩
    · exact .inr ⟨c, C, _, _, _, rfl, hC, h⟩
  | query c =>
    rcases execQuery_cases c s with ⟨_, h⟩ | ⟨_, _, h⟩
    · exact .inl ⟨_, _, h, by simp⟩
    · exact .inl ⟨_, _, h, by simp⟩

/-- A step: the decoded command run with its frame consumed, ILLEGAL answered, or the core waiting. -/
theorem step_cases (s : State) :
    (∃ i rest, decode s.input = .command i rest ∧ step s = exec i (s.consumed rest)) ∨
    (∃ rest, decode s.input = .illegal rest ∧ step s = .next ((s.consumed rest).respond .illegal [])) ∨
    (decode s.input = .incomplete ∧ step s = .next s) := by
  cases h : decode s.input with
  | command i rest => exact .inl ⟨i, rest, rfl, by simp [step, State.fetch, h]⟩
  | illegal rest => exact .inr (.inl ⟨rest, rfl, by simp [step, State.fetch, h, rejectFrame, raise_eq]⟩)
  | incomplete => exact .inr (.inr ⟨rfl, by simp [step, State.fetch, h, await]⟩)

end Sys2Proof.Machine
end

