-- ==== Sys2Proof/Laws/Decode.lean ====
section
/-! SUPPORT. Words and their fields (spec/30_encoding.md R80, R81): bytes of a word, a word as its five fields, and when a word fits a
row of the opcode table (R85). -/

namespace Sys2Proof

open Sys2Proof.Machine (extract_append_high extract_append_low)

/-! ## Bytes of a word -/

@[simp] theorem wordBytes_length (w : Word) : (wordBytes w).length = 4 := rfl

/-- The word read from the bytes of a word is that word. -/
@[simp] theorem takeWord_wordBytes (w : Word) (rest : List Byte) : takeWord (wordBytes w ++ rest) = some (w, rest) := by
  have h : (w.extractLsb' 24 8 ++ w.extractLsb' 16 8 ++ w.extractLsb' 8 8 ++ w.extractLsb' 0 8 : BitVec 32) = w := by
    rw [BitVec.extractLsb'_append_extractLsb'_eq_extractLsb' (by rfl),
      BitVec.extractLsb'_append_extractLsb'_eq_extractLsb' (by rfl),
      BitVec.extractLsb'_append_extractLsb'_eq_extractLsb' (by rfl)]
    exact BitVec.extractLsb'_eq_self
  simp only [wordBytes, List.cons_append, List.nil_append, takeWord, h]

/-- The bytes of a word put together from four bytes are those bytes. -/
theorem wordBytes_append (b0 b1 b2 b3 : Byte) : wordBytes (b3 ++ b2 ++ b1 ++ b0) = [b0, b1, b2, b3] := by
  have high {n : Nat} (x : BitVec n) (b : Byte) (k j : Nat) (h : j = k + 8) :
      (x ++ b).extractLsb' j 8 = x.extractLsb' k 8 := h ▸ extract_append_high x b k
  simp only [wordBytes, extract_append_low, high _ _ 0 8 rfl, high _ _ 8 16 rfl, high _ _ 16 24 rfl, List.cons.injEq, true_and,
    and_true]
  exact BitVec.extractLsb'_eq_self

/-- What takeWord read. -/
theorem takeWord_eq_some {bs rest : List Byte} {w : Word} : takeWord bs = some (w, rest) ↔ bs = wordBytes w ++ rest := by
  constructor
  · intro h
    match bs, h with
    | b0 :: b1 :: b2 :: b3 :: tail, h =>
      simp only [takeWord, Option.some.injEq, Prod.mk.injEq] at h
      obtain ⟨rfl, rfl⟩ := h
      rw [wordBytes_append]
      rfl
  · rintro rfl
    exact takeWord_wordBytes w rest

/-- takeWord reads nothing exactly from fewer than four bytes. -/
theorem takeWord_eq_none {bs : List Byte} : takeWord bs = none ↔ bs.length < 4 := by
  match bs with
  | [] | [_] | [_, _] | [_, _, _] => simp [takeWord]
  | _ :: _ :: _ :: _ :: _ => simp [takeWord]

/-! ## Fields of a word -/

/-- Two appended words are equal exactly when their parts are. -/
theorem append_inj {m n : Nat} {a c : BitVec m} {b d : BitVec n} : a ++ b = c ++ d ↔ a = c ∧ b = d := by
  constructor
  · intro h
    have h1 := congrArg (fun x : BitVec (m + n) => x.extractLsb' 0 n) h
    have h2 := congrArg (fun x : BitVec (m + n) => x.extractLsb' n m) h
    simp only [BitVec.extractLsb'_append_eq_right, BitVec.extractLsb'_append_eq_left] at h1 h2
    exact ⟨h2, h1⟩
  · rintro ⟨rfl, rfl⟩
    rfl

/-- A word is its five fields (R81). -/
theorem word_fields (w : Word) : w = rsvField w ++ BitVec.ofBool (hexField w) ++ auxField w ++ ctxField w ++ opcField w := by
  have hb : BitVec.ofBool (hexField w) = w.extractLsb' 12 1 := by
    ext i hi
    have : i = 0 := by omega
    subst this
    simp [hexField]
  rw [hb, rsvField, auxField, ctxField, opcField, BitVec.extractLsb'_append_extractLsb'_eq_extractLsb' (by rfl),
    BitVec.extractLsb'_append_extractLsb'_eq_extractLsb' (by rfl),
    BitVec.extractLsb'_append_extractLsb'_eq_extractLsb' (by rfl),
    BitVec.extractLsb'_append_extractLsb'_eq_extractLsb' (by rfl)]
  exact BitVec.extractLsb'_eq_self.symm

/-- The fields of a command word are those it was made from. -/
theorem commandWord_fields (o c a : BitVec 4) (h : Bool) :
    rsvField (commandWord o c a h) = 0 ∧ hexField (commandWord o c a h) = h ∧ auxField (commandWord o c a h) = a ∧
      ctxField (commandWord o c a h) = c ∧ opcField (commandWord o c a h) = o := by
  have e := word_fields (commandWord o c a h)
  conv_lhs at e => rw [commandWord]
  rw [append_inj, append_inj, append_inj, append_inj] at e
  obtain ⟨⟨⟨⟨e1, e2⟩, e3⟩, e4⟩, e5⟩ := e
  refine ⟨e1.symm, ?_, e3.symm, e4.symm, e5.symm⟩
  revert e2
  cases hexField (commandWord o c a h) <;> cases h <;> simp

/-- A word whose reserved bits are 0 is the command word of its fields. -/
theorem commandWord_of_fields {w : Word} (h : rsvField w = 0) :
    commandWord (opcField w) (ctxField w) (auxField w) (hexField w) = w := by
  conv_rhs => rw [word_fields w, h]
  rfl

/-! ## Rows of the opcode table -/

/-- A mask and a pattern compared field by field. -/
theorem and_fields (w : Word) (r r' : BitVec 19) (h h' : BitVec 1) (a a' c c' o o' : BitVec 4) :
    w &&& (r ++ h ++ a ++ c ++ o : BitVec 32) = (r' ++ h' ++ a' ++ c' ++ o' : BitVec 32) ↔
      rsvField w &&& r = r' ∧ BitVec.ofBool (hexField w) &&& h = h' ∧ auxField w &&& a = a' ∧ ctxField w &&& c = c' ∧
        opcField w &&& o = o' := by
  conv_lhs => rw [word_fields w]
  rw [BitVec.and_append, BitVec.and_append, BitVec.and_append, BitVec.and_append, append_inj, append_inj, append_inj, append_inj]
  tauto

theorem and_ones19 (r : BitVec 19) : r &&& 0x7FFFF#19 = r := by
  rw [show 0x7FFFF#19 = BitVec.allOnes 19 by decide, BitVec.and_allOnes]

theorem and_ones4 (r : BitVec 4) : r &&& 0xF#4 = r := by
  rw [show 0xF#4 = BitVec.allOnes 4 by decide, BitVec.and_allOnes]

/-- A row with AUX free and HEX = 0 (INIT, COPY). -/
theorem fits_aux (w : Word) (k : Opcode) (o : BitVec 4) :
    (OpcodeRow.mk k (0#19 ++ 0#1 ++ 0#4 ++ 0#4 ++ o : BitVec 32) 0xFFFFF00F#32).fits w = true ↔
      opcField w = o ∧ hexField w = false ∧ rsvField w = 0 := by
  rw [OpcodeRow.fits, beq_iff_eq, show 0xFFFFF00F#32 = (0x7FFFF#19 ++ 1#1 ++ 0#4 ++ 0#4 ++ 0xF#4 : BitVec 32) by decide, and_fields,
    and_ones19, and_ones4]
  cases hexField w <;> simp [and_comm]

/-- A row with AUX = 0 and HEX = 0 (UPDATE, FREE, QUERY). -/
theorem fits_plain (w : Word) (k : Opcode) (o : BitVec 4) :
    (OpcodeRow.mk k (0#19 ++ 0#1 ++ 0#4 ++ 0#4 ++ o : BitVec 32) 0xFFFFFF0F#32).fits w = true ↔
      opcField w = o ∧ auxField w = 0 ∧ hexField w = false ∧ rsvField w = 0 := by
  rw [OpcodeRow.fits, beq_iff_eq, show 0xFFFFFF0F#32 = (0x7FFFF#19 ++ 1#1 ++ 0xF#4 ++ 0#4 ++ 0xF#4 : BitVec 32) by decide,
    and_fields, and_ones19, and_ones4, and_ones4]
  cases hexField w <;> simp
  tauto

/-- A row with AUX = 0 and HEX free (DIGEST, SQUEEZE). -/
theorem fits_hex (w : Word) (k : Opcode) (o : BitVec 4) :
    (OpcodeRow.mk k (0#19 ++ 0#1 ++ 0#4 ++ 0#4 ++ o : BitVec 32) 0xFFFFEF0F#32).fits w = true ↔
      opcField w = o ∧ auxField w = 0 ∧ rsvField w = 0 := by
  rw [OpcodeRow.fits, beq_iff_eq, show 0xFFFFEF0F#32 = (0x7FFFF#19 ++ 0#1 ++ 0xF#4 ++ 0#4 ++ 0xF#4 : BitVec 32) by decide,
    and_fields, and_ones19, and_ones4, and_ones4]
  cases hexField w <;> simp <;> tauto

/-- Each row of the opcode table in terms of the fields it fixes (R85). -/
theorem fits_rows (w : Word) :
    ((OpcodeRow.mk .init 0x00000001#32 0xFFFFF00F#32).fits w = true ↔
      opcField w = 1 ∧ hexField w = false ∧ rsvField w = 0) ∧
    ((OpcodeRow.mk .update 0x00000002#32 0xFFFFFF0F#32).fits w = true ↔
      opcField w = 2 ∧ auxField w = 0 ∧ hexField w = false ∧ rsvField w = 0) ∧
    ((OpcodeRow.mk .digest 0x00000003#32 0xFFFFEF0F#32).fits w = true ↔
      opcField w = 3 ∧ auxField w = 0 ∧ rsvField w = 0) ∧
    ((OpcodeRow.mk .squeeze 0x00000004#32 0xFFFFEF0F#32).fits w = true ↔
      opcField w = 4 ∧ auxField w = 0 ∧ rsvField w = 0) ∧
    ((OpcodeRow.mk .copy 0x00000005#32 0xFFFFF00F#32).fits w = true ↔
      opcField w = 5 ∧ hexField w = false ∧ rsvField w = 0) ∧
    ((OpcodeRow.mk .free 0x00000006#32 0xFFFFFF0F#32).fits w = true ↔
      opcField w = 6 ∧ auxField w = 0 ∧ hexField w = false ∧ rsvField w = 0) ∧
    ((OpcodeRow.mk .query 0x00000007#32 0xFFFFFF0F#32).fits w = true ↔
      opcField w = 7 ∧ auxField w = 0 ∧ hexField w = false ∧ rsvField w = 0) :=
  ⟨fits_aux w .init 1, fits_plain w .update 2, fits_hex w .digest 3, fits_hex w .squeeze 4, fits_aux w .copy 5, fits_plain w .free 6,
    fits_plain w .query 7⟩

/-! ## The command of a word -/

/-- The command a word stands for, by its fields: the whole of R84 to R86 in one equation. -/
theorem instrOf_eq (w operand : Word) (p : List Byte) :
    instrOf w operand p =
      if rsvField w ≠ 0 then none
      else if opcField w = 1 ∧ hexField w = false then some (.init (ctxField w) (auxField w))
      else if opcField w = 2 ∧ auxField w = 0 ∧ hexField w = false then some (.update (ctxField w) operand p)
      else if opcField w = 3 ∧ auxField w = 0 then some (.digest (ctxField w) (hexField w))
      else if opcField w = 4 ∧ auxField w = 0 then some (.squeeze (ctxField w) (hexField w) operand)
      else if opcField w = 5 ∧ hexField w = false then some (.copy (ctxField w) (auxField w))
      else if opcField w = 6 ∧ auxField w = 0 ∧ hexField w = false then some (.free (ctxField w))
      else if opcField w = 7 ∧ auxField w = 0 ∧ hexField w = false then some (.query (ctxField w))
      else none := by
  obtain ⟨h1, h2, h3, h4, h5, h6, h7⟩ := fits_rows w
  have e {a : Bool} {p : Prop} [Decidable p] (h : a = true ↔ p) : a = decide p := by
    by_cases hp : p <;> cases a <;> simp_all
  unfold instrOf opcodeOf opcodeTable
  simp only [List.find?_cons, List.find?_nil]
  rw [e h1, e h2, e h3, e h4, e h5, e h6, e h7]
  clear h1 h2 h3 h4 h5 h6 h7
  generalize opcField w = o
  generalize auxField w = a
  generalize hexField w = h
  have ho : ∀ o : BitVec 4,
      o = 0 ∨ o = 1 ∨ o = 2 ∨ o = 3 ∨ o = 4 ∨ o = 5 ∨ o = 6 ∨ o = 7 ∨
        o ≠ 1 ∧ o ≠ 2 ∧ o ≠ 3 ∧ o ≠ 4 ∧ o ≠ 5 ∧ o ≠ 6 ∧ o ≠ 7 := by decide
  by_cases hr : rsvField w = 0
  · by_cases ha : a = 0
    all_goals
      simp only [hr, ha, and_true, and_false, false_and, true_and, ne_eq, not_true_eq_false, if_false]
      rcases ho o with rfl | rfl | rfl | rfl | rfl | rfl | rfl | rfl | ⟨n1, n2, n3, n4, n5, n6, n7⟩
      iterate 8 (cases h <;> rfl)
      simp only [n1, n2, n3, n4, n5, n6, n7, false_and, decide_false, if_false]
      rfl
  · simp only [hr, and_false, decide_false, ne_eq, not_false_eq_true, if_true]
    rfl

end Sys2Proof
end

