-- ==== Sys2Proof/Laws/PerInstr.lean ====
section
/-! SUPPORT. A fact about every command as syntax, stated per constructor: how long its frame is (spec/30_encoding.md R83). -/

namespace Sys2Proof.Laws.FrameLength

/-- The operand word of a command's frame; 0 where it has none. -/
def operandWord : Instr → Word
  | .init _ _ => 0
  | .update _ len _ => len
  | .digest _ _ => 0
  | .squeeze _ _ n => n
  | .copy _ _ => 0
  | .free _ => 0
  | .query _ => 0

/-- The frame of a well-formed command is as long as its OPC and operand word say (R83), and its word carries the command's OPC. -/
def Statement (i : Instr) : Prop :=
  i.wellFormed = true →
    opcField (encodeWord i) = opcodeValue i ∧ (encode i).length = frameLength (encodeWord i) (operandWord i)

theorem init (ctx : CtxIndex) (variant : VariantId) : Statement (.init ctx variant) := by
  intro _
  have h := (commandWord_fields 1 ctx variant false).2.2.2.2
  exact ⟨h, by rw [frameLength, encodeWord, h]; rfl⟩

theorem update (ctx : CtxIndex) (len : Word) (payload : List Byte) : Statement (.update ctx len payload) := by
  intro hw
  have h := (commandWord_fields 2 ctx 0 false).2.2.2.2
  have hl : payload.length = len.toNat := by simpa [Instr.wellFormed] using hw
  refine ⟨h, ?_⟩
  rw [frameLength, encodeWord, h, if_pos rfl, encode, encodeOperands, List.length_append, List.length_append, wordBytes_length,
    wordBytes_length, hl, operandWord]
  omega

theorem digest (ctx : CtxIndex) (hex : Bool) : Statement (.digest ctx hex) := by
  intro _
  have h := (commandWord_fields 3 ctx 0 hex).2.2.2.2
  exact ⟨h, by rw [frameLength, encodeWord, h]; rfl⟩

theorem squeeze (ctx : CtxIndex) (hex : Bool) (n : Word) : Statement (.squeeze ctx hex n) := by
  intro _
  have h := (commandWord_fields 4 ctx 0 hex).2.2.2.2
  exact ⟨h, by rw [frameLength, encodeWord, h]; rfl⟩

theorem copy (dst src : CtxIndex) : Statement (.copy dst src) := by
  intro _
  have h := (commandWord_fields 5 dst src false).2.2.2.2
  exact ⟨h, by rw [frameLength, encodeWord, h]; rfl⟩

theorem free (ctx : CtxIndex) : Statement (.free ctx) := by
  intro _
  have h := (commandWord_fields 6 ctx 0 false).2.2.2.2
  exact ⟨h, by rw [frameLength, encodeWord, h]; rfl⟩

theorem query (ctx : CtxIndex) : Statement (.query ctx) := by
  intro _
  have h := (commandWord_fields 7 ctx 0 false).2.2.2.2
  exact ⟨h, by rw [frameLength, encodeWord, h]; rfl⟩

end Sys2Proof.Laws.FrameLength
end

