-- ==== Sys2Proof/Tests/Slice0.lean ====
section
/-! SUPPORT. Tests on fixed values, each expected result taken from the spec, and for each statement of Certificates/Slice0 a witness that
its hypotheses can be met. -/

namespace Sys2Proof.Tests

open Sys2Proof.Machine Sys2Proof.Safety

/-! ## Small states -/

/-- An empty SHA3-256 context. -/
def sha : Context := Context.reset.configure ⟨1, 136, 32, 0x06, 136⟩ 0

/-- A SHA3-256 context with R - 1 bytes buffered. -/
def shaFull : Context := { sha with buflen := 135 }

/-- An empty SHAKE128 context. -/
def shake : Context := Context.reset.configure ⟨4, 168, 0, 0x1F, 0⟩ 0

/-- A SHAKE128 context in SQUEEZING with the given cursor. -/
def shakeOut (q : Byte) : Context := { shake with mode := .squeezing, sqpos := q }

/-- A machine of two contexts. -/
def machine (C D : Context) : State := { State.resetWith 2 .na with ctx := [C, D] }

/-- The machine after reset, with bytes sent to it. -/
def sent (bs : List Byte) : State := (State.resetWith 2 .na).send bs

/-- The responses a result holds. -/
def answers : Result → List Response
  | .next t => t.responses
  | .fault _ => []
  | .refused _ => []

/-- A context a result holds. -/
def contextAfter (r : Result) (c : CtxIndex) : Option Context :=
  match r with
  | .next t => t.context c
  | .fault _ => none
  | .refused _ => none

/-! ## Well-formed commands: one check, and a term it refuses -/

theorem test_wellFormed_update : (Instr.update 0 3 [0x61, 0x62, 0x63]).wellFormed = true := by decide
theorem test_wellFormed_update_short : (Instr.update 0 3 [0x61, 0x62]).wellFormed = false := by decide
theorem test_wellFormed_update_long : (Instr.update 0 0 [0x61]).wellFormed = false := by decide

/-! ## Decoding: words written out bit by bit from R81 and R85 (RSV, HEX, AUX, CTX, OPC) -/

theorem test_decode_init :
    instrOf 0b0000000000000000000_0_1011_1111_0001#32 0 [] = some (.init 15 11) := by decide
theorem test_decode_update :
    instrOf 0b0000000000000000000_0_0000_0101_0010#32 1 [0xCC] = some (.update 5 1 [0xCC]) := by decide
theorem test_decode_digest :
    instrOf 0b0000000000000000000_1_0000_0001_0011#32 0 [] = some (.digest 1 true) := by decide
theorem test_decode_squeeze :
    instrOf 0b0000000000000000000_0_0000_0001_0100#32 100 [] = some (.squeeze 1 false 100) := by decide
theorem test_decode_copy :
    instrOf 0b0000000000000000000_0_0010_1000_0101#32 0 [] = some (.copy 8 2) := by decide
theorem test_decode_free :
    instrOf 0b0000000000000000000_0_0000_0001_0110#32 0 [] = some (.free 1) := by decide
theorem test_decode_query :
    instrOf 0b0000000000000000000_0_0000_0000_0111#32 0 [] = some (.query 0) := by decide

/-- R84: (a) reserved opcodes, the all-zero word among them (R169); (b) RSV; (c) AUX; (d) HEX. -/
theorem test_decode_illegal :
    [0x00000000#32, 0x00000008#32, 0x0000000F#32, 0x00002001#32, 0x80000004#32, 0x00000102#32, 0x00000F07#32, 0x00001001#32,
      0x00001005#32].all (fun w => (instrOf w 0 []).isNone) = true := by decide +kernel

/-- R80 and R83: a frame that runs into the next, byte by byte; the payload of an ILLEGAL UPDATE is consumed. -/
theorem test_decode_frames :
    decode [0x02, 0x00, 0x00, 0x00, 0x01, 0x00, 0x00, 0x00, 0xCC, 0x03, 0x00] = .command (.update 0 1 [0xCC]) [0x03, 0x00] ∧
    decode [0x02, 0x10, 0x00, 0x00, 0x02, 0x00, 0x00, 0x00, 0xAA, 0xBB, 0x07] = .illegal [0x07] ∧
    decode [0x04, 0x01, 0x00, 0x00, 0x05, 0x00, 0x00, 0x00, 0x07] = .illegal [0x07] ∧
    decode [0x02, 0x00, 0x00, 0x00, 0x02, 0x00, 0x00, 0x00, 0xAA] = .incomplete := by decide

/-- Each row of the opcode table, as the host reads it: its word alone, operand words and payload of zeros. -/
theorem test_decodeTableWord :
    decodeTableWord 32 0x00000001 = some (.init 0 0) ∧ decodeTableWord 32 0x00000002 = some (.update 0 0 []) ∧
    decodeTableWord 32 0x00000003 = some (.digest 0 false) ∧ decodeTableWord 32 0x00000004 = some (.squeeze 0 false 0) ∧
    decodeTableWord 32 0x00000005 = some (.copy 0 0) ∧ decodeTableWord 32 0x00000006 = some (.free 0) ∧
    decodeTableWord 32 0x00000007 = some (.query 0) ∧ decodeTableWord 32 0 = none := by decide

/-! ## One step of each command -/

/-- R162: INIT c0, SHA3-256 answers OK, and leaves MODE = ABSORBING, R = 136, D = 32, d = 0x06, BUFLEN = 0. -/
theorem test_init :
    answers (step (State.reset.withFetchWord 32 0x00000101)) = [⟨.ok, []⟩] ∧
    (contextAfter (step (State.reset.withFetchWord 32 0x00000101)) 0).map
        (fun C => (C.mode, C.rate, C.digestSize, C.suffix, C.buflen, C.lanes)) =
      some (.absorbing, 136, 32, 0x06, 0, .zero) := by decide +kernel

/-- R212: BAD_CONTEXT comes before CONFIG_ERROR; the unassigned id 6 is no ILLEGAL word. -/
theorem test_init_errors :
    answers (step (sent [0x21, 0x06, 0x00, 0x00])) = [⟨.badContext, []⟩] ∧
    answers (step (sent [0x11, 0x06, 0x00, 0x00])) = [⟨.configError, []⟩] := by decide

/-- R163: UPDATE c0, "616263" leaves BUFLEN = 3, the bytes buffered and the lanes zero. -/
theorem test_update :
    (contextAfter (exec (.update 0 3 [0x61, 0x62, 0x63]) (machine sha .reset)) 0).map
        (fun C => (C.buflen, C.pending, C.lanes)) =
      some (3, [0x61, 0x62, 0x63], .zero) := by decide +kernel

/-- R163: a payload that fills the block exactly absorbs it at once and leaves BUFLEN = 0. -/
theorem test_update_block :
    (contextAfter (exec (.update 0 1 [0x80]) (machine shaFull .reset)) 0).map
        (fun C => (C.buflen, C.lanes == keccakF (xorIn .zero (zeros 135 ++ [0x80])))) =
      some (0, true) := by decide +kernel

/-- R164, 95 section 4: DIGEST of an empty SHA3-256 context. -/
theorem test_digest :
    answers (exec (.digest 0 false) (machine sha .reset)) =
      [⟨.ok, [0xa7, 0xff, 0xc6, 0xf8, 0xbf, 0x1e, 0xd7, 0x66, 0x51, 0xc1, 0x47, 0x56, 0xa0, 0x61, 0xd6, 0x62, 0xf5, 0x80, 0xff, 0x4d,
        0xe4, 0x3b, 0x49, 0xfa, 0x82, 0xd8, 0x0a, 0x4b, 0x80, 0xf8, 0x43, 0x4a]⟩] := by decide +kernel

/-- R164: DIGEST of an XOF context is a STATE_ERROR; of an empty slot, UNCONFIGURED. -/
theorem test_digest_errors :
    answers (exec (.digest 0 true) (machine shake .reset)) = [⟨.stateError, []⟩] ∧
    answers (exec (.digest 1 true) (machine shake .reset)) = [⟨.unconfigured, []⟩] := by decide

/-- R165: SQUEEZE c1, 32 of an empty SHAKE128 context, in hex for its first four bytes. -/
theorem test_squeeze :
    answers (exec (.squeeze 1 true 4) (machine .reset shake)) = [⟨.ok, [0x37, 0x66, 0x39, 0x63, 0x32, 0x62, 0x61, 0x34]⟩] := by
  decide +kernel

/-- R136, 95 V-S6: at SQPOS = R, SQUEEZE 0 changes nothing, with no permutation. -/
theorem test_squeeze_nothing :
    contextAfter (exec (.squeeze 1 false 0) (machine .reset (shakeOut 168))) 1 = some (shakeOut 168) := by rfl

/-- R166: a copy is independent and holds the source's bytes; the source is unchanged. -/
theorem test_copy :
    contextAfter (exec (.copy 1 0) (machine shaFull (shakeOut 5))) 0 = some shaFull ∧
    (contextAfter (exec (.copy 1 0) (machine shaFull (shakeOut 5))) 1).map (fun C => (C.mode, C.rate, C.buflen, C.pending)) =
      some (.absorbing, 136, 135, zeros 135) := by
  exact ⟨rfl, by decide +kernel⟩

/-- R166: an unconfigured source is UNCONFIGURED, and either index past NCTX is BAD_CONTEXT. -/
theorem test_copy_errors :
    answers (exec (.copy 0 1) (machine sha .reset)) = [⟨.unconfigured, []⟩] ∧
    answers (exec (.copy 0 2) (machine sha .reset)) = [⟨.badContext, []⟩] ∧
    answers (exec (.copy 2 0) (machine sha .reset)) = [⟨.badContext, []⟩] := by decide

/-- R167: FREE leaves MODE = UNCONFIGURED, and the other context as it was. -/
theorem test_free :
    (contextAfter (exec (.free 1) (machine shaFull shake)) 1).map (·.mode) = some .unconfigured ∧
    contextAfter (exec (.free 1) (machine shaFull shake)) 0 = some shaFull := by
  exact ⟨rfl, rfl⟩

/-- R168: QUERY of SHAKE128, and of an empty slot. -/
theorem test_query :
    answers (exec (.query 1) (machine .reset shake)) = [⟨.ok, [0x04, 0x01, 0xa8, 0x00, 0x00, 0x1f, 0x20, 0x00]⟩] ∧
    answers (exec (.query 0) (machine .reset shake)) = [⟨.ok, [0xff, 0, 0, 0, 0, 0, 0, 0]⟩] := by decide

/-- R169: the word 0x00000008 answers ILLEGAL; R210: the response is one status byte. -/
theorem test_illegal :
    (answers (step (sent [0x08, 0x00, 0x00, 0x00]))).map Response.bytes = [[0x01]] := by decide

/-! ## The permutation, the sponge and the padding (95 sections 2 and 3) -/

/-- V-P1: the first lanes of Keccak_f of the zero state. -/
theorem test_keccakF :
    (keccakF .zero).y0 = ⟨0xF1258F7940E1DDE7, 0x84D5CCF933C0478A, 0xD598261EA65AA9EE, 0xBD1547306F80494D, 0x8B284E056253D057⟩ := by
  decide +kernel

/-- V-P7, V-P8 and V-P10: ρ, π and χ on one lane. -/
theorem test_steps :
    (rho { Lanes.zero with y0 := ⟨0, 0x8000000000000000, 0, 0, 0⟩ }).lane 1 = 1 ∧
    pi { Lanes.zero with y1 := ⟨0, 1, 0, 0, 0⟩ } = { Lanes.zero with y0 := ⟨0, 1, 0, 0, 0⟩ } ∧
    chi { Lanes.zero with y0 := ⟨0, 0, 1, 0, 0⟩ } = { Lanes.zero with y0 := ⟨1, 0, 1, 0, 0⟩ } := by decide +kernel

/-- V-S2: byte 9 of the view is bits 15:8 of lane 1. -/
theorem test_xorIn : (xorIn .zero [0, 0, 0, 0, 0, 0, 0, 0, 0, 0xAB]).lane 1 = 0xAB00 := by decide +kernel

/-- V-D3, V-D6 and V-D7: d and the final bit in one byte, two blocks, and one block. -/
theorem test_padBlocks :
    padBlocks (zeros 135) 136 0x06 = [zeros 135 ++ [0x86]] ∧
    padBlocks (zeros 135) 136 0x81 = [zeros 135 ++ [0x81], zeros 135 ++ [0x80]] ∧
    padBlocks (zeros 134) 136 0x81 = [zeros 134 ++ [0x81, 0x80]] := by decide +kernel

/-- R92, the forms of 30_encoding section 4; the lower case of "cc" is log entry 17. -/
theorem test_assembly :
    assembly (.update 0 3 [0x61, 0x62, 0x63]) = some "UPDATE c0, \"616263\"" ∧
    assembly (.update 0 1 [0xCC]) = some "UPDATE c0, \"cc\"" ∧
    assembly (.squeeze 1 true 4) = some "SQUEEZE.HEX c1, 4" ∧ assembly (.init 1 4) = some "INIT c1, SHAKE128" := by decide +kernel

/-- R94: NEW with data is INIT and then UPDATE with LEN the number of bytes; without data it is INIT alone. -/
theorem test_expandPseudo :
    expandPseudo (.new 1 4 (some [0x61, 0x62, 0x63])) = [.init 1 4, .update 1 3 [0x61, 0x62, 0x63]] ∧
    expandPseudo (.new 1 4 (some [])) = [.init 1 4, .update 1 0 []] ∧ expandPseudo (.new 1 4 none) = [.init 1 4] := by decide

/-! ## Witnesses: for each statement with hypotheses, values that meet them, a clause at a time -/

theorem witness_WorkedEncodingsAgree : ([0x07, 0x00, 0x00, 0x00], Instr.query 0) ∈
    ([([0x03, 0x00, 0x00, 0x00], .digest 0 false), ([0x07, 0x00, 0x00, 0x00], .query 0)] : List (List Byte × Instr)) := by decide

theorem witness_DecodeInvertsEncode : (Instr.update 15 2 [0xAB, 0xCD]).wellFormed = true := by decide

theorem witness_EncodeInvertsDecode :
    decode [0x14, 0x10, 0x00, 0x00, 0x04, 0x00, 0x00, 0x00, 0x07] = .command (.squeeze 1 true 4) [0x07] := by decide

theorem witness_IllegalWordsAreThoseOfFieldLegality :
    tableWf (State.resetWith 2 .na) ∧ (1 : CtxIndex).toNat < (State.resetWith 2 .na).nctx ∧ (6 : VariantId) ∈ unassignedIds ∧
      (15 : VariantId) ∈ unassignedIds := by decide

theorem witness_OpcodeRowsExcludeEachOther :
    (⟨.digest, 0x00000003#32, 0xFFFFEF0F#32⟩ : OpcodeRow) ∈ opcodeTable ∧
      (⟨.digest, 0x00000003#32, 0xFFFFEF0F#32⟩ : OpcodeRow).fits 0x000010F3 = true := by decide

theorem witness_FrameLengthFollowsFromOpc :
    (opcField 0xFFFFFFFF ≠ 2 ∧ opcField 0xFFFFFFFF ≠ 4) ∧ opcField 0x00000104 = 4 ∧
      (opcField 0x00001002 = 2 ∧ ([0xAA] : List Byte).length = (1 : Word).toNat) := by decide

theorem witness_IncompleteExactlyWhenBytesAreMissing :
    ([0x01, 0x00, 0x00] : List Byte).length < 4 ∧ (opcField 0 ≠ 2 ∧ opcField 0 ≠ 4) ∧ opcField 0x00000004 = 4 ∧
      (opcField 0x00000002 = 2 ∧ ([] : List Byte).length < 4) := by decide

theorem witness_StepRunsTheDecodedCommand :
    (Instr.query 1).wellFormed = true ∧ decode (sent [0x17, 0x00, 0x00, 0x00, 0x07]).input = .command (.query 1) [0x07] := by decide

theorem witness_IllegalFrameIsAnswered :
    (instrOf 0x00000000 0 [] = none ∧ opcField 0x00000000 ≠ 2 ∧ opcField 0x00000000 ≠ 4 ∧
      (sent [0, 0, 0, 0, 0x07]).input = wordBytes 0x00000000 ++ [0x07]) ∧
    (instrOf 0x00000104 0 [] = none ∧ opcField 0x00000104 = 4 ∧
      (sent [0x04, 0x01, 0, 0, 5, 0, 0, 0]).input = wordBytes 0x00000104 ++ wordBytes 5 ++ []) ∧
    (instrOf 0x00001002 0 [] = none ∧ opcField 0x00001002 = 2 ∧ ([0xAA] : List Byte).length = (1 : Word).toNat ∧
      (sent [0x02, 0x10, 0, 0, 1, 0, 0, 0, 0xAA, 0x07]).input = wordBytes 0x00001002 ++ wordBytes 1 ++ [0xAA] ++ [0x07]) := by decide

theorem witness_IncompleteFrameWaits :
    decode (sent [0x07, 0x00]).input = .incomplete ∧ decode ((sent [0x07, 0x00]).input ++ [0x00, 0x00]) = .command (.query 0) [] := by
  decide

theorem witness_InitFollowsItsRule :
    opcField 0x000000B1 = 1 ∧ (State.resetWith 2 .na).nctx ≤ (2 : CtxIndex).toNat ∧
      (1 : CtxIndex).toNat < (State.resetWith 2 .na).nctx ∧ tableRow (State.resetWith 2 .na).table 6 = none ∧
      tableRow (State.resetWith 2 .na).table 11 = some ⟨11, 72, 64, 0x01, 72⟩ := by decide

/-- The last clauses are met with BUFLEN = R - 1, and the empty payload too. -/
theorem witness_UpdateFollowsItsRule :
    opcField 0x00000002 = 2 ∧ ([0xCC] : List Byte).length = (1 : Word).toNat ∧ (machine sha shake).nctx ≤ (2 : CtxIndex).toNat ∧
      ((machine sha .reset).context 1 = some .reset ∧ Context.reset.mode = .unconfigured) ∧
      ((machine sha (shakeOut 168)).context 1 = some (shakeOut 168) ∧ (shakeOut 168).mode = .squeezing) ∧
      ((machine shaFull shake).context 0 = some shaFull ∧ shaFull.mode = .absorbing ∧ 1 ≤ shaFull.rate.toNat ∧
        shaFull.rate.toNat ≤ 168 ∧ shaFull.buflen.toNat < shaFull.rate.toNat) := 
  ⟨by decide, by decide, by decide, ⟨rfl, rfl⟩, ⟨rfl, rfl⟩, ⟨rfl, rfl, by decide, by decide, by decide⟩⟩

theorem witness_DigestFollowsItsRule :
    opcField 0x00001013 = 3 ∧ (machine sha shake).nctx ≤ (15 : CtxIndex).toNat ∧
      ((machine sha .reset).context 1 = some .reset ∧ Context.reset.mode = .unconfigured) ∧
      ((machine sha shake).context 1 = some shake ∧ shake.mode ≠ .unconfigured ∧ shake.digestSize = 0) ∧
      ((machine shaFull shake).context 0 = some shaFull ∧ shaFull.mode ≠ .unconfigured ∧ shaFull.digestSize ≠ 0 ∧
        1 ≤ shaFull.rate.toNat ∧ shaFull.rate.toNat ≤ 168) := 
  ⟨by decide, by decide, ⟨rfl, rfl⟩, ⟨rfl, by decide, rfl⟩, ⟨rfl, by decide, by decide, by decide, by decide⟩⟩

/-- The last clause is met in ABSORBING, and in SQUEEZING at SQPOS = 0 and at SQPOS = R. -/
theorem witness_SqueezeFollowsItsRule :
    opcField 0x00001014 = 4 ∧ (machine sha shake).nctx ≤ (2 : CtxIndex).toNat ∧
      ((machine sha .reset).context 1 = some .reset ∧ Context.reset.mode = .unconfigured) ∧
      ((machine sha shake).context 0 = some sha ∧ sha.mode ≠ .unconfigured ∧ sha.digestSize ≠ 0) ∧
      (∀ C, (machine sha C).context 1 = some C) ∧
      ∀ C ∈ [shake, shakeOut 0, shakeOut 168],
        C.mode ≠ .unconfigured ∧ C.digestSize = 0 ∧ 1 ≤ C.rate.toNat ∧ C.rate.toNat ≤ 168 ∧
          (C.mode = .squeezing → C.sqpos.toNat ≤ C.rate.toNat) :=
  ⟨by decide, by decide, ⟨rfl, rfl⟩, ⟨rfl, by decide, by decide⟩, fun _ => rfl, by decide⟩

theorem witness_CopyFollowsItsRule :
    opcField 0x00000015 = 5 ∧
      ((machine sha shake).nctx ≤ (2 : CtxIndex).toNat ∨ (machine sha shake).nctx ≤ (0 : CtxIndex).toNat) ∧
      ((1 : CtxIndex).toNat < (machine sha .reset).nctx ∧ (machine sha .reset).context 1 = some .reset ∧
        Context.reset.mode = .unconfigured) ∧
      ((1 : CtxIndex).toNat < (machine shaFull shake).nctx ∧ (machine shaFull shake).context 0 = some shaFull ∧
        shaFull.mode ≠ .unconfigured ∧ shaFull.buflen.toNat ≤ 167 ∧ (1 : CtxIndex) ≠ 0) := 
  ⟨by decide, by decide, ⟨by decide, rfl, rfl⟩, ⟨by decide, rfl, by decide, by decide, by decide⟩⟩

theorem witness_FreeFollowsItsRule :
    opcField 0x00000016 = 6 ∧ (machine sha shake).nctx ≤ (2 : CtxIndex).toNat ∧
      ((machine sha .reset).context 1 = some .reset ∧ Context.reset.mode = .unconfigured) ∧
      (0 : CtxIndex).toNat < (machine sha .reset).nctx := 
  ⟨by decide, by decide, ⟨rfl, rfl⟩, by decide⟩

theorem witness_QueryFollowsItsRule :
    opcField 0x00000007 = 7 ∧ (machine sha shake).nctx ≤ (2 : CtxIndex).toNat ∧
      ((machine sha .reset).context 1 = some .reset ∧ Context.reset.mode = .unconfigured) ∧
      ((machine sha shake).context 0 = some sha ∧ sha.mode = .absorbing) ∧
      ((machine sha (shakeOut 9)).context 1 = some (shakeOut 9) ∧ (shakeOut 9).mode = .squeezing) := 
  ⟨by decide, by decide, ⟨rfl, rfl⟩, ⟨rfl, rfl⟩, ⟨rfl, rfl⟩⟩

theorem witness_StatusFollowsThePriority :
    tableWf (machine sha shake) ∧ decode (sent [0x08, 0, 0, 0]).input = .illegal [] := by decide

theorem witness_ErrorsHaveNoEffect :
    (∃ t, exec (.update 1 0 []) (machine sha (shakeOut 9)) = .next t ∧
      t.responses = (machine sha (shakeOut 9)).responses ++ [⟨.stateError, []⟩] ∧ Status.stateError ≠ .ok) ∧
    (∃ t, step (sent [0x08, 0, 0, 0]) = .next t ∧ t.responses = (sent [0x08, 0, 0, 0]).responses ++ [⟨.illegal, []⟩] ∧
      Status.illegal ≠ .ok) :=
  ⟨⟨_, rfl, rfl, by decide⟩, ⟨_, rfl, rfl, by decide⟩⟩

theorem witness_OneResponseOfTheRightLength :
    StateWf (machine sha (shakeOut 168)) ∧ StateWf (sent [0x08, 0, 0, 0]) ∧ decode (sent [0x08, 0, 0, 0]).input ≠ .incomplete := by
  decide +kernel

theorem witness_StepKeepsResponsesWellFormed :
    ResponsesWf (sent [0x07, 0, 0, 0]) ∧ ∃ t, step (sent [0x07, 0, 0, 0]) = .next t := ⟨by decide, _, rfl⟩

theorem witness_HexFlagChangesOnlyTheForm :
    (Instr.squeeze 1 false 4 = .digest 1 false ∧ Instr.squeeze 1 true 4 = .digest 1 true) ∨
      (Instr.squeeze 1 false 4 = .squeeze 1 false 4 ∧ Instr.squeeze 1 true 4 = .squeeze 1 true 4) := by decide

theorem witness_HexTextRule : ([0x00, 0xAF] : List Byte)[1]? = some 0xAF ∧ hexText [0xAF] = hexText [0xAF] := by decide

theorem witness_ContextsNeverAlias :
    (∃ t, exec (.copy 1 0) (machine shaFull .reset) = .next t ∧ writtenContext (.copy 1 0) ≠ some 0) ∧
    ((1 : CtxIndex) ≠ 0 ∧ (1 : CtxIndex).toNat < (machine shaFull .reset).nctx ∧ (machine shaFull .reset).context 0 = some shaFull ∧
      shaFull.mode ≠ .unconfigured ∧ shaFull.buflen.toNat ≤ 167) :=
  ⟨⟨_, rfl, by decide⟩, ⟨by decide, by decide, rfl, by decide, by decide⟩⟩

theorem witness_FrameOfEveryCommand :
    (∃ t D, exec (.init 0 4) (machine sha shake) = .next t ∧ writtenContext (.init 0 4) ≠ some 1 ∧
      (machine sha shake).context 0 = some sha ∧ t.context 0 = some D) ∧
    (∃ t D, exec (.update 0 1 [0xCC]) (machine sha shake) = .next t ∧ (machine sha shake).context 0 = some sha ∧
      t.context 0 = some D) ∧
    (∃ t D, exec (.squeeze 1 false 0) (machine sha (shakeOut 0)) = .next t ∧
      (machine sha (shakeOut 0)).context 1 = some (shakeOut 0) ∧ t.context 1 = some D) ∧
    (∃ t, exec (.query 1) (machine sha shake) = .next t) :=
  ⟨⟨_, _, rfl, by decide, rfl, rfl⟩, ⟨_, _, rfl, rfl, rfl⟩, ⟨_, _, rfl, rfl, rfl⟩, ⟨_, rfl⟩⟩

theorem witness_TableIsNeverWritten : ∃ t, step (sent [0x01, 0x01, 0, 0]) = .next t := ⟨_, rfl⟩

theorem witness_StepKeepsStateWellFormed :
    StateWf { machine shaFull (shakeOut 168) with input := [0x14, 0, 0, 0, 0, 0, 0, 0] } ∧
      ∃ t, step { machine shaFull (shakeOut 168) with input := [0x14, 0, 0, 0, 0, 0, 0, 0] } = .next t :=
  ⟨by decide +kernel, _, rfl⟩

theorem witness_ResetIsWellFormed : (1 ≤ 1 ∧ 1 ≤ 16) ∧ (1 ≤ 16 ∧ 16 ≤ 16) ∧ StateWf (machine shaFull (shakeOut 168)) := by
  decide +kernel

theorem witness_ResetUnconfiguresEveryContext :
    (15 : CtxIndex).toNat < 16 ∧ (1 : CtxIndex).toNat < (machine sha shake).nctx := by decide

/-- Two states that differ in SQPOS while ABSORBING, in the configuration of an empty slot, and in the port. -/
theorem witness_UnspecifiedFieldsAreUnobservable :
    StateWf (machine shaFull .reset) ∧ StateWf { machine { shaFull with sqpos := 7 } { Context.reset with rate := 5 } with input := [9] } ∧
      StateSame (machine shaFull .reset)
        { machine { shaFull with sqpos := 7 } { Context.reset with rate := 5 } with input := [9] } := by
  refine ⟨by decide +kernel, by decide +kernel, ?_, rfl⟩
  refine .cons ⟨rfl, fun _ => ⟨rfl, rfl, rfl, rfl⟩, ?_⟩ (.cons ⟨rfl, fun h => absurd rfl h, ?_⟩ .nil) <;> intro h <;> cases h

theorem witness_CommandsOnDifferentContextsCommute :
    StateWf (machine shaFull shake) ∧ ∀ c ∈ namedContexts (.free 0), c ∉ namedContexts (.squeeze 1 false 4) := by decide +kernel

theorem witness_SqueezeIsOneWay :
    (∃ t, exec (.squeeze 1 false 0) (machine sha (shakeOut 0)) = .next t ∧
      t.responses = (machine sha (shakeOut 0)).responses ++ [⟨.ok, []⟩]) ∧
    ((machine sha (shakeOut 0)).context 1 = some (shakeOut 0) ∧ (shakeOut 0).mode = .squeezing ∧
      (∀ v, Instr.copy 0 1 ≠ .init 1 v) ∧ (∀ src, Instr.copy 0 1 ≠ .copy 1 src) ∧ Instr.copy 0 1 ≠ .free 1 ∧
      ∃ t, exec (.copy 0 1) (machine sha (shakeOut 0)) = .next t) :=
  ⟨⟨_, rfl, rfl⟩, rfl, rfl, by simp, by simp, by simp, _, rfl⟩

theorem witness_DigestDoesNotConsume : ∃ t, exec (.digest 1 false) (machine sha shake) = .next t := ⟨_, rfl⟩

theorem witness_ChunkingInvariance :
    StateWf (machine .reset shake) ∧ (0 : CtxIndex).toNat < (machine .reset shake).nctx ∧
      tableRow (machine .reset shake).table 1 = some ⟨1, 136, 32, 0x06, 136⟩ ∧ (32 : Byte) ≠ 0 ∧
      ∀ p ∈ ([[0x61], [], [0x62, 0x63]] : List (List Byte)), p.length < 2 ^ 32 := by decide +kernel

theorem witness_SqueezesOutputOneStream :
    StateWf (machine .reset shake) ∧ (0 : CtxIndex).toNat < (machine .reset shake).nctx ∧
      tableRow (machine .reset shake).table 5 = some ⟨5, 136, 0, 0x1F, 0⟩ ∧ (0 : Byte) = 0 ∧
      ∀ p ∈ ([[0x61], [], [0x62, 0x63]] : List (List Byte)), p.length < 2 ^ 32 := by decide +kernel

theorem witness_ThetaFormula : (24 < 25) ∧ ∀ x < 5, columnOf { Lanes.zero with y0 := ⟨1, 0, 0, 0, 0⟩, y1 := ⟨1, 0, 0, 0, 0⟩ } x = 0 := by
  decide +kernel

theorem witness_RhoAndPiFormulas : rotationOffsets[24]? = some 14 ∧ 4 < 5 := by decide

theorem witness_ChiAndIotaFormulas :
    (∀ i < 25, (Lanes.ofList (List.replicate 25 (BitVec.allOnes 64))).lane i = BitVec.allOnes 64) ∧ (1 ≤ 24 ∧ 24 < 25) ∧
      ((roundConstant 23).getLsbD 63 = true ∧ 23 < 24 ∧ 63 < 64) := by decide +kernel

theorem witness_GeneratingRulesGiveTheTables : 23 < 24 := by decide

theorem witness_ByteViewIsLittleEndian : 199 < 200 ∧ 24 < 25 := by decide

theorem witness_XorInChangesTheFirstBytes :
    (([1, 2, 3] : List Byte).length ≤ 200 ∧ (stateBytes .zero)[2]? = some 0 ∧ ([1, 2, 3] : List Byte)[2]? = some 3) ∧
    ([1, 2, 3] : List Byte).length ≤ 3 ∧ (24 < 25 ∧ ∀ j < 8, ([1, 2, 3] : List Byte).getD (8 * 24 + j) 0 = 0) := by decide +kernel

theorem witness_PaddedBlocksAreTheBitRule :
    ((zeros 71).length < 72 ∧ ([false, true] : List Bool).length ≤ 7) ∧
      ((zeros 0).length < 1 ∧ (List.replicate 7 true).length ≤ 7) := by decide +kernel

theorem witness_PaddingIsInjective : 1 ≤ 72 ∧ paddedStream [0xCC] [] 72 = paddedStream [0xCC] [] 72 := ⟨by decide, rfl⟩

theorem witness_SuffixBytesOfTheRows : (⟨11, 72, 64, 0x01, 72⟩ : VariantRow) ∈ variantTable .rate := by decide

theorem witness_VariantRowsAreConsistent :
    (⟨3, 72, 64, 0x06, 72⟩ : VariantRow) ∈ variantTable .na ∧ (64 : Byte) ≠ 0 ∧ (⟨4, 168, 0, 0x1F, 168⟩ : VariantRow) ∈ variantTable .rate := by
  decide

theorem witness_NewWithEmptyDataIsNew :
    StateWf (machine shaFull shake) ∧ (1 : CtxIndex).toNat < (machine shaFull shake).nctx ∧
      tableRow (machine shaFull shake).table 4 = some ⟨4, 168, 0, 0x1F, 0⟩ := by decide +kernel

end Sys2Proof.Tests
end

