-- ==== Sys2Proof/Proofs/Frames.lean ====
section
/-! PROOF. Contexts never alias (spec/10_state.md R41, R44): a command leaves every context it does not write as it was, and a COPY gives
the destination the source's fields without touching the source. -/

namespace Sys2Proof.Proofs

open Sys2Proof.Machine Sys2Proof.Safety

/-- A command changes no context but the one it writes (R41). -/
theorem exec_context_of_not_written {i : Instr} {s t : State} {k : CtxIndex} (h : exec i s = .next t)
    (hk : writtenContext i ≠ some k) : t.context k = s.context k := by
  rcases exec_cases i s with ⟨st, out, hexec, -⟩ | ⟨c, C, D, out, n, hwrites, -, hexec⟩
  · obtain rfl : s.respond st out = t := by simpa [hexec] using h
    exact State.respond_context s st out k
  · have hne : k ≠ c := fun e => hk (e ▸ hwrites)
    obtain rfl : State.respond { s with ctx := s.ctx.set c.toNat D, draws := n } .ok out = t := by simpa [hexec] using h
    exact State.setContext_context_ne s D hne

/-- A context overwritten by COPY agrees with the source, whatever it held (R166). -/
theorem contextSame_copyFrom (C : Context) {S : Context} (h : S.buflen.toNat ≤ Config.bufBytes) : contextSame (C.copyFrom S) S :=
  ⟨rfl, fun _ => ⟨rfl, rfl, rfl, Context.pending_copyFrom C h⟩, fun _ => rfl⟩

/-- COPY of a configured context onto another writes the destination and answers OK (R166). -/
theorem execCopy_of_configured {s : State} {dst src : CtxIndex} {C S : Context} (hne : dst ≠ src) (hC : s.context dst = some C)
    (hS : s.context src = some S) (hm : S.mode ≠ .unconfigured) :
    execCopy dst src s = .next ((s.setContext dst (C.copyFrom S)).respond .ok []) := by
  rcases execCopy_cases dst src s with ⟨hnone, -⟩ | ⟨_, S', -, hS', hm', -⟩ | ⟨_, _, -, -, -, he, -⟩ | ⟨C', S', hC', hS', -, -, h⟩
  · simp [hC, hS] at hnone
  · obtain rfl : S = S' := Option.some.inj (hS.symm.trans hS')
    exact absurd hm' hm
  · exact absurd he hne
  · obtain rfl : C = C' := Option.some.inj (hC.symm.trans hC')
    obtain rfl : S = S' := Option.some.inj (hS.symm.trans hS')
    exact h

/-- Settles O25: the frame of every command, and for COPY the source read back as a context the command does not write. -/
theorem contextsNeverAlias : Obligations.ContextsNeverAlias := by
  unfold Obligations.ContextsNeverAlias
  refine ⟨fun i s t k => exec_context_of_not_written, fun s dst src S hne hdst hS hm hlen => ?_⟩
  obtain ⟨C, hC⟩ : ∃ C, s.context dst = some C := by
    rw [← Option.isSome_iff_exists, State.context_isSome, decide_eq_true hdst]
  have hexec : exec (.copy dst src) s = .next ((s.setContext dst (C.copyFrom S)).respond .ok []) :=
    execCopy_of_configured hne hC hS hm
  have hsource : writtenContext (.copy dst src) ≠ some src := fun e => hne (Option.some.inj e)
  refine ⟨_, C.copyFrom S, hexec, ?_, contextSame_copyFrom C hlen, ?_⟩
  · exact State.setContext_context_self hC
  · exact (exec_context_of_not_written hexec hsource).trans hS

end Sys2Proof.Proofs
end

