-- ==== Sys2Proof/Proofs/Memory.lean ====
section
/-! PROOF. The byte view of the state is little-endian (spec/20_memory.md R61): where each byte of the view stands in its lane, and a lane
as the sum of its bytes. -/

namespace Sys2Proof.Proofs

open Sys2Proof.Machine

/-- Byte k of a lane is its bits from 8·k up, and there are eight. -/
theorem laneBytes_eq_map (a : Lane) : laneBytes a = (List.range 8).map fun k => a.extractLsb' (8 * k) 8 := rfl

/-- Byte k of a lane, least significant first. -/
theorem laneBytes_getElem? (a : Lane) {k : Nat} (hk : k < 8) : (laneBytes a)[k]? = some (a.extractLsb' (8 * k) 8) := by
  rw [laneBytes_eq_map, List.getElem?_map, List.getElem?_range hk, Option.map_some]

/-- Byte k of unpacked lanes is byte k mod 8 of lane k div 8, where there is such a lane. -/
theorem flatMap_laneBytes_getElem? (ls : List Lane) (k : Nat) :
    (ls.flatMap laneBytes)[k]? = ls[k / 8]?.map fun a => a.extractLsb' (8 * (k % 8)) 8 := by
  induction ls generalizing k with
  | nil => rfl
  | cons a ls ih =>
    rw [List.flatMap_cons]
    rcases Nat.lt_or_ge k 8 with hk | hk
    · rw [List.getElem?_append_left (by simpa using hk), laneBytes_getElem? a hk, Nat.div_eq_of_lt hk, Nat.mod_eq_of_lt hk]
      rfl
    · obtain ⟨m, rfl⟩ := Nat.exists_eq_add_of_le' hk
      rw [List.getElem?_append_right (by simp), laneBytes_length, Nat.add_sub_cancel, ih, Nat.add_div_right m (by decide),
        Nat.add_mod_right, List.getElem?_cons_succ]

/-- A lane by its index is the entry of the list of lanes. -/
theorem lanes_getElem? (A : Lanes) {i : Nat} (hi : i < 25) : A.toList[i]? = some (A.lane i) := by
  rw [Lanes.lane, List.getD_eq_getElem?_getD, List.getElem?_eq_getElem (by simpa using hi), Option.getD_some]

/-- Byte k of the view is byte k mod 8 of lane k div 8 (R61). -/
theorem stateBytes_getElem? (A : Lanes) {k : Nat} (hk : k < 200) :
    (stateBytes A)[k]? = some ((A.lane (k / 8)).extractLsb' (8 * (k % 8)) 8) := by
  rw [stateBytes, flatMap_laneBytes_getElem?, lanes_getElem? A (by omega), Option.map_some]

/-- Byte j of lane i stands at 8·i + j in the view (R61). -/
theorem stateBytes_getD_of_lane (A : Lanes) {i j : Nat} (hi : i < 25) (hj : j < 8) :
    (stateBytes A).getD (8 * i + j) 0 = (A.lane i).extractLsb' (8 * j) 8 := by
  have hdiv : (8 * i + j) / 8 = i := by omega
  have hmod : (8 * i + j) % 8 = j := by omega
  rw [List.getD_eq_getElem?_getD, stateBytes_getElem? A (by omega), hdiv, hmod, Option.getD_some]

/-- The low n bytes of a number, each at its own weight, sum to its residue modulo 2^(8·n). -/
theorem sum_bytes_eq_mod (x n : Nat) :
    ((List.range n).map fun j => x / 2 ^ (8 * j) % 2 ^ 8 * 2 ^ (8 * j)).sum = x % 2 ^ (8 * n) := by
  induction n with
  | zero => simp [Nat.mod_one]
  | succ n ih =>
    rw [List.range_succ, List.map_append, List.sum_append, ih, List.map_singleton, List.sum_singleton, Nat.mul_succ, Nat.pow_add,
      Nat.mod_mul, Nat.mul_comm (2 ^ (8 * n))]

/-- A lane is the sum of its eight bytes, byte j at weight 2^(8·j). -/
theorem lane_toNat_eq_sum_bytes (a : Lane) :
    a.toNat = ((List.range 8).map fun j => (a.extractLsb' (8 * j) 8).toNat * 2 ^ (8 * j)).sum := by
  simp only [BitVec.extractLsb'_toNat, Nat.shiftRight_eq_div_pow, sum_bytes_eq_mod]
  exact (Nat.mod_eq_of_lt a.isLt).symm

/-- Settles O44: the bytes of the view by their position in the lanes, and each lane as the sum of its bytes. -/
theorem byteViewIsLittleEndian : Obligations.ByteViewIsLittleEndian := by
  unfold Obligations.ByteViewIsLittleEndian
  refine ⟨stateBytes_length, fun A k => stateBytes_getElem? A, fun A i hi => ?_⟩
  rw [lane_toNat_eq_sum_bytes]
  refine congrArg List.sum (List.map_congr_left fun j hj => ?_)
  rw [stateBytes_getD_of_lane A hi (List.mem_range.mp hj)]

end Sys2Proof.Proofs
end

