-- ==== Sys2Proof/Proofs/Encoding.lean ====
section
/-! PROOF. Frames (spec/30_encoding.md R83, R84, R87, R89, R91): which words are ILLEGAL, how many bytes a frame takes, and that every
frame has one answer, whose output has the length the command and the context fix and the form HEX fixes. -/

namespace Sys2Proof.Proofs

open Sys2Proof.Machine Sys2Proof.Safety

/-! ## ILLEGAL words -/

/-- A word with a reserved bit set is ILLEGAL (R84 (b)). -/
theorem instrOf_of_reserved {w : Word} (h : rsvField w ≠ 0) (operand : Word) (payload : List Byte) :
    instrOf w operand payload = none := by
  rw [instrOf_eq, if_pos h]

/-- With the reserved bits 0, a word is ILLEGAL exactly where its OPC is no row's, its AUX is not 0 outside INIT and COPY, or its HEX
is 1 outside DIGEST and SQUEEZE (R84 (a), (c), (d)). -/
theorem instrOf_eq_none_of_unreserved {w : Word} (h : rsvField w = 0) (operand : Word) (payload : List Byte) :
    instrOf w operand payload = none ↔
      (opcField w = 0 ∨ 8 ≤ (opcField w).toNat) ∨
      (auxField w ≠ 0 ∧ opcField w ∈ ([2, 3, 4, 6, 7] : List (BitVec 4))) ∨
      (hexField w = true ∧ opcField w ∈ ([1, 2, 5, 6, 7] : List (BitVec 4))) := by
  simp only [instrOf_eq, h, ne_eq, not_true_eq_false, if_false, ite_eq_iff, reduceCtorEq, and_false, false_or, and_true]
  generalize opcField w = opc
  by_cases ha : auxField w = 0 <;> cases hexField w
  all_goals
    simp only [ha, not_true_eq_false, not_false_eq_true, reduceCtorEq, true_and, false_and, and_true, and_false]
    revert opc
    decide

/-- The fixed table is that of one of the two values of XOF_BLOCK_SIZE. -/
theorem exists_variantTable {s : State} (ht : tableWf s) : ∃ x, s.table = variantTable x :=
  ht.elim (fun h => ⟨.na, h⟩) (fun h => ⟨.rate, h⟩)

/-- No row of the fixed table has an unassigned id (R89). -/
theorem row_eq_none_of_unassigned {s : State} {v : VariantId} (ht : tableWf s) (hv : v ∈ unassignedIds) : s.row v = none := by
  have hrows (x : XofBlockSize) : ∀ v ∈ unassignedIds, tableRow (variantTable x) v = none := by cases x <;> decide
  obtain ⟨x, hx⟩ := exists_variantTable ht
  rw [State.row, hx, hrows x v hv]

/-- INIT of a context that is there with an id no row has raises CONFIG_ERROR (R84, 43_engine R162). -/
theorem execInit_of_unassigned {s : State} {c : CtxIndex} {v : VariantId} (hc : c.toNat < s.nctx) (hv : s.row v = none) :
    execInit c v s = .next (s.respond .configError []) := by
  rcases execInit_cases c v s with ⟨hnone, -⟩ | ⟨-, -, -, h⟩ | ⟨_, _, -, hrow, -⟩
  · exact absurd ((State.context_eq_none s c).mp hnone) (Nat.not_le.mpr hc)
  · exact h
  · simp [hv] at hrow

/-- Settles O4: the reserved bits first, then the fields R84 forbids by OPC; and INIT's answer where the table has no row. -/
theorem illegalWordsAreThoseOfFieldLegality : Obligations.IllegalWordsAreThoseOfFieldLegality := by
  unfold Obligations.IllegalWordsAreThoseOfFieldLegality
  refine ⟨fun w operand payload => ?_, fun c v s ht hc hv => execInit_of_unassigned hc (row_eq_none_of_unassigned ht hv)⟩
  by_cases hr : rsvField w = 0
  · simp only [instrOf_eq_none_of_unreserved hr, hr, ne_eq, not_true_eq_false, false_or]
  · simp only [instrOf_of_reserved hr, hr, ne_eq, not_false_eq_true, true_or, or_true]

/-! ## The length of a frame -/

/-- The frame of a word with neither operand word nor payload is its four bytes (R83). -/
theorem decode_of_word {w : Word} (h2 : opcField w ≠ 2) (h4 : opcField w ≠ 4) (rest : List Byte) :
    decode (wordBytes w ++ rest) = decodeFrame w 0 [] rest := by
  simp only [decode, takeWord_wordBytes, h2, h4, if_false]

/-- The frame of a word with SQUEEZE's OPC is that word and its operand word (R83). -/
theorem decode_of_squeeze_opc {w : Word} (h : opcField w = 4) (n : Word) (rest : List Byte) :
    decode (wordBytes w ++ wordBytes n ++ rest) = decodeFrame w n [] rest := by
  have h2 : opcField w ≠ 2 := by rw [h]; decide
  simp only [List.append_assoc, decode, takeWord_wordBytes, if_neg h2, if_pos h]

/-- The frame of a word with UPDATE's OPC is that word, LEN and LEN bytes of payload (R83). -/
theorem decode_of_update_opc {w : Word} (h : opcField w = 2) {len : Word} {payload : List Byte} (hlen : payload.length = len.toNat)
    (rest : List Byte) :
    decode (wordBytes w ++ wordBytes len ++ payload ++ rest) = decodeFrame w len payload rest := by
  have hwhole : ¬ (payload ++ rest).length < len.toNat := by
    rw [List.length_append]
    omega
  simp only [List.append_assoc, decode, takeWord_wordBytes, h, if_true, hwhole, if_false, List.take_left' hlen,
    List.drop_left' hlen]

/-- A whole frame leaves the bytes after it, whether its word is ILLEGAL or not. -/
theorem restAfter_decodeFrame (w operand : Word) (payload rest : List Byte) :
    restAfter (decodeFrame w operand payload rest) = some rest := by
  unfold decodeFrame
  split <;> rfl

/-- Settles O6: for each OPC the decoder takes the frame R83 gives, before it asks whether the word is ILLEGAL. -/
theorem frameLengthFollowsFromOpc : Obligations.FrameLengthFollowsFromOpc := by
  unfold Obligations.FrameLengthFollowsFromOpc
  refine fun w rest => ⟨fun h2 h4 => ?_, fun h n => ?_, fun h len payload hlen => ?_⟩
  · rw [decode_of_word h2 h4, restAfter_decodeFrame]
  · rw [decode_of_squeeze_opc h, restAfter_decodeFrame]
  · rw [decode_of_update_opc h hlen, restAfter_decodeFrame]

/-! ## Lengths of outputs -/

/-- Hex text has two digits a byte (43_engine R173). -/
@[simp] theorem hexText_length (out : List Byte) : (hexText out).length = 2 * out.length := by
  simp [hexText, hexByte, Nat.mul_comm]

/-- The length of an output in either form (R87). -/
theorem outputForm_length (hex : Bool) (out : List Byte) :
    (outputForm hex out).length = if hex then 2 * out.length else out.length := by
  cases hex <;> simp [outputForm]

/-- An empty output is empty in either form. -/
@[simp] theorem outputForm_nil (hex : Bool) : outputForm hex [] = [] := by cases hex <;> rfl

/-- CTXINFO has 8 bytes (10_state R43). -/
theorem info_length (C : Context) : C.info.length = 8 := by
  unfold Context.info
  split <;> rfl

/-- The rates of the fixed table are between 1 and R_MAX (43_engine R161). -/
theorem rate_of_tableRow {s : State} (ht : tableWf s) {v : VariantId} {row : VariantRow} (h : tableRow s.table v = some row) :
    1 ≤ row.rate.toNat ∧ row.rate.toNat ≤ Config.rateMax := by
  have hmem : row ∈ s.table := List.mem_of_find?_eq_some h
  have hrows (x : XofBlockSize) : ∀ row ∈ variantTable x, 1 ≤ row.rate.toNat ∧ row.rate.toNat ≤ Config.rateMax := by
    cases x <;> decide
  obtain ⟨x, hx⟩ := exists_variantTable ht
  exact hrows x row (hx ▸ hmem)

/-- A configured context of a well-formed state has a rate of the table, and its cursor, where it is SQUEEZING, is within the block
(10_state R38). -/
theorem bounds_of_configured {s : State} (hs : StateWf s) {c : CtxIndex} {C : Context} (hC : s.context c = some C)
    (hm : C.mode ≠ .unconfigured) :
    1 ≤ C.rate.toNat ∧ C.rate.toNat ≤ Config.rateMax ∧ (C.mode = .squeezing → C.sqpos.toNat ≤ C.rate.toNat) := by
  obtain ⟨-, ht, hctx⟩ := hs
  have hwf : contextWf s.table C = true := hctx C (State.context_mem hC)
  have hrate (h : hasRow s.table C = true) : 1 ≤ C.rate.toNat ∧ C.rate.toNat ≤ Config.rateMax :=
    rate_of_tableRow ht (beq_iff_eq.mp h)
  cases hmode : C.mode with
  | unconfigured => exact absurd hmode hm
  | absorbing =>
    simp only [contextWf, hmode, Bool.and_eq_true] at hwf
    obtain ⟨hR1, hR⟩ := hrate hwf.1
    exact ⟨hR1, hR, by simp⟩
  | squeezing =>
    simp only [contextWf, hmode, Bool.and_eq_true, decide_eq_true_eq] at hwf
    obtain ⟨⟨⟨hrow, -⟩, -⟩, hpos⟩ := hwf
    obtain ⟨hR1, hR⟩ := hrate hrow
    exact ⟨hR1, hR, fun _ => hpos⟩

/-- A context about to be squeezed has its cursor within the block. -/
theorem readyToSqueeze_sqpos_le {C : Context} (hm : C.mode ≠ .unconfigured)
    (h : C.mode = .squeezing → C.sqpos.toNat ≤ C.rate.toNat) : C.readyToSqueeze.sqpos.toNat ≤ C.rate.toNat := by
  cases hmode : C.mode with
  | unconfigured => exact absurd hmode hm
  | absorbing => simp [Context.readyToSqueeze, hmode]
  | squeezing => simpa [Context.readyToSqueeze, hmode] using h hmode

/-- A digest has D bytes (43_engine R164). -/
theorem digest_length {C : Context} (hR1 : 1 ≤ C.rate.toNat) (hR : C.rate.toNat ≤ Config.rateMax) :
    C.digest.length = C.digestSize.toNat := by
  rw [Context.digest_eq hR1 hR, streamPrefix_length hR1 (Nat.le_trans hR (by decide))]

/-- A squeeze of n bytes outputs n bytes (43_engine R165). -/
theorem squeezed_out_length {C : Context} (hR1 : 1 ≤ C.rate.toNat) (hR : C.rate.toNat ≤ Config.rateMax)
    (hp : C.sqpos.toNat ≤ C.rate.toNat) (n : Nat) : (C.squeezed n).out.length = n := by
  rw [Context.squeezed_eq hR1 hR hp, List.length_drop, streamPrefix_length hR1 (Nat.le_trans hR (by decide)), Nat.add_sub_cancel_left]

/-! ## One response -/

/-- The outcome is a next state with one more response than `s`, whose output is empty unless the status is OK, and then has `n` bytes
(R91). -/
def AnswersOnce (s : State) (n : Nat) (r : Result) : Prop :=
  ∃ t st out, r = .next t ∧ t.responses = s.responses ++ [⟨st, out⟩] ∧ (st ≠ .ok → out = []) ∧ (st = .ok → out.length = n)

/-- An error is one answer, whatever length OK would have had. -/
theorem answersOnce_of_error {s : State} {st : Status} {r : Result} (h : r = .next (s.respond st [])) (hst : st ≠ .ok) (n : Nat) :
    AnswersOnce s n r :=
  ⟨_, st, [], h, rfl, fun _ => rfl, fun hok => absurd hok hst⟩

/-- OK from a state with the responses of `s` is one answer. -/
theorem answersOnce_of_ok {s t : State} {out : List Byte} {r : Result} {n : Nat} (h : r = .next (t.respond .ok out))
    (ht : t.responses = s.responses) (hn : out.length = n) : AnswersOnce s n r :=
  ⟨_, .ok, out, h, by rw [State.respond_responses, ht], fun hne => absurd rfl hne, fun _ => hn⟩

/-- DIGEST answers once, with D bytes or 2·D hex digits. -/
theorem execDigest_answersOnce {s : State} (hs : StateWf s) (c : CtxIndex) (hex : Bool) :
    AnswersOnce s (expectedOutputLength (.digest c hex) s) (execDigest c hex s) := by
  rcases execDigest_cases c hex s with ⟨-, h⟩ | ⟨_, -, -, h⟩ | ⟨_, -, -, -, h⟩ | ⟨C, hC, hm, -, h⟩
  · exact answersOnce_of_error h (by decide) _
  · exact answersOnce_of_error h (by decide) _
  · exact answersOnce_of_error h (by decide) _
  · obtain ⟨hR1, hR, -⟩ := bounds_of_configured hs hC hm
    refine answersOnce_of_ok h rfl ?_
    simp only [outputForm_length, digest_length hR1 hR, expectedOutputLength, hC]

/-- SQUEEZE answers once, with N bytes or 2·N hex digits. -/
theorem execSqueeze_answersOnce {s : State} (hs : StateWf s) (c : CtxIndex) (hex : Bool) (n : Word) :
    AnswersOnce s (expectedOutputLength (.squeeze c hex n) s) (execSqueeze c hex n s) := by
  rcases execSqueeze_cases c hex n s with ⟨-, h⟩ | ⟨_, -, -, h⟩ | ⟨_, -, -, -, h⟩ | ⟨C, hC, hm, -, h⟩
  · exact answersOnce_of_error h (by decide) _
  · exact answersOnce_of_error h (by decide) _
  · exact answersOnce_of_error h (by decide) _
  · obtain ⟨hR1, hR, hp⟩ := bounds_of_configured hs hC hm
    have hlen : (C.readyToSqueeze.squeezed n.toNat).out.length = n.toNat :=
      squeezed_out_length (by simpa using hR1) (by simpa using hR)
        (by simpa using readyToSqueeze_sqpos_le hm hp) _
    refine answersOnce_of_ok h rfl ?_
    simp only [outputForm_length, hlen, expectedOutputLength]

/-- Every command answers once, with an output as long as R91 says. -/
theorem exec_answersOnce {s : State} (hs : StateWf s) (i : Instr) : AnswersOnce s (expectedOutputLength i s) (exec i s) := by
  cases i with
  | init c v =>
    rcases execInit_cases c v s with ⟨-, h⟩ | ⟨_, -, -, h⟩ | ⟨_, _, -, -, h⟩
    · exact answersOnce_of_error h (by decide) _
    · exact answersOnce_of_error h (by decide) _
    · exact answersOnce_of_ok h rfl rfl
  | update c len payload =>
    rcases execUpdate_cases c len payload s with ⟨-, h⟩ | ⟨_, -, -, h⟩ | ⟨_, -, -, h⟩ | ⟨_, -, -, h⟩
    · exact answersOnce_of_error h (by decide) _
    · exact answersOnce_of_error h (by decide) _
    · exact answersOnce_of_error h (by decide) _
    · exact answersOnce_of_ok h rfl rfl
  | digest c hex => exact execDigest_answersOnce hs c hex
  | squeeze c hex n => exact execSqueeze_answersOnce hs c hex n
  | copy dst src =>
    rcases execCopy_cases dst src s with ⟨-, h⟩ | ⟨_, _, -, -, -, h⟩ | ⟨_, _, -, -, -, -, h⟩ | ⟨_, _, -, -, -, -, h⟩
    · exact answersOnce_of_error h (by decide) _
    · exact answersOnce_of_error h (by decide) _
    · exact answersOnce_of_ok h rfl rfl
    · exact answersOnce_of_ok h rfl rfl
  | free c =>
    rcases execFree_cases c s with ⟨-, h⟩ | ⟨_, -, -, h⟩ | ⟨_, -, -, h⟩
    · exact answersOnce_of_error h (by decide) _
    · exact answersOnce_of_ok h rfl rfl
    · exact answersOnce_of_ok h rfl rfl
  | query c =>
    rcases execQuery_cases c s with ⟨-, h⟩ | ⟨C, -, h⟩
    · exact answersOnce_of_error h (by decide) _
    · exact answersOnce_of_ok h rfl (info_length C)

/-- Settles O21: each command's cases give its one answer, and a step runs a command or answers ILLEGAL. -/
theorem oneResponseOfTheRightLength : Obligations.OneResponseOfTheRightLength := by
  unfold Obligations.OneResponseOfTheRightLength
  refine ⟨fun i s hs => exec_answersOnce hs i, fun s hs hwhole => ?_, fun _ => rfl⟩
  rcases step_cases s with ⟨i, rest, -, h⟩ | ⟨rest, -, h⟩ | ⟨hinc, -⟩
  · have hconsumed : StateWf (s.consumed rest) := hs
    obtain ⟨t, st, out, hexec, hresp, hempty, -⟩ := exec_answersOnce hconsumed i
    exact ⟨t, ⟨st, out⟩, h.trans hexec, hresp, hempty⟩
  · exact ⟨_, ⟨.illegal, []⟩, h, rfl, fun _ => rfl⟩
  · exact absurd hinc hwhole

/-! ## HEX -/

/-- DIGEST writes no context and answers with one status and one output, of which HEX fixes the form alone (R87). -/
theorem execDigest_hex (s : State) (c : CtxIndex) :
    ∃ st out, ∀ hex, execDigest c hex s = .next (s.respond st (outputForm hex out)) := by
  unfold execDigest
  cases s.context c with
  | none => exact ⟨.badContext, [], fun hex => by simp only [outputForm_nil, raise_eq]⟩
  | some C =>
    cases hm : C.mode with
    | unconfigured => exact ⟨.unconfigured, [], fun hex => by simp only [hm, outputForm_nil, raise_eq]⟩
    | absorbing | squeezing =>
      by_cases hD : C.digestSize = 0
      · exact ⟨.stateError, [], fun hex => by simp only [hm, if_pos hD, outputForm_nil, raise_eq]⟩
      · exact ⟨.ok, C.digest, fun hex => by simp only [hm, if_neg hD, complete_eq]⟩

/-- SQUEEZE changes the state in the same way for either HEX, and answers with one status and one output, of which HEX fixes the form
alone (R87). -/
theorem execSqueeze_hex (s : State) (c : CtxIndex) (n : Word) :
    ∃ (t : State) (st : Status) (out : List Byte), t.responses = s.responses ∧
      ∀ hex, execSqueeze c hex n s = .next (t.respond st (outputForm hex out)) := by
  unfold execSqueeze
  cases s.context c with
  | none => exact ⟨s, .badContext, [], rfl, fun hex => by simp only [outputForm_nil, raise_eq]⟩
  | some C =>
    cases hm : C.mode with
    | unconfigured => exact ⟨s, .unconfigured, [], rfl, fun hex => by simp only [hm, outputForm_nil, raise_eq]⟩
    | absorbing | squeezing =>
      by_cases hD : C.digestSize = 0
      · exact ⟨s.setContext c (C.readyToSqueeze.afterSqueeze n.toNat), .ok, (C.readyToSqueeze.squeezed n.toNat).out, rfl,
          fun hex => by simp only [hm, hD, ne_eq, not_true_eq_false, if_false, complete_eq]⟩
      · exact ⟨s, .stateError, [], rfl, fun hex => by simp only [hm, if_pos hD, outputForm_nil, raise_eq]⟩

/-- Settles O23: the state and the output of DIGEST and SQUEEZE are found before HEX is looked at. -/
theorem hexFlagChangesOnlyTheForm : Obligations.HexFlagChangesOnlyTheForm := by
  unfold Obligations.HexFlagChangesOnlyTheForm
  rintro s c n i j (⟨rfl, rfl⟩ | ⟨rfl, rfl⟩)
  · obtain ⟨st, out, h⟩ := execDigest_hex s c
    exact ⟨_, _, st, out, h false, h true, rfl, rfl, rfl⟩
  · obtain ⟨t, st, out, ht, h⟩ := execSqueeze_hex s c n
    refine ⟨_, _, st, out, h false, h true, ?_, ?_, rfl⟩
    · rw [State.respond_responses, ht]
      rfl
    · rw [State.respond_responses, ht]
      rfl

end Sys2Proof.Proofs
end

