-- ==== Sys2Proof/Proofs/Permutation.lean ====
section
/-! PROOF. The step mappings of the permutation by lane index (spec/40_permutation.md R112 to R116), the rounds (R111, R118), and the
tables of constants against their generating rules (R117, R120). -/

namespace Sys2Proof.Proofs

open Sys2Proof.Machine Sys2Proof.Safety

/-! ## States by lane -/

/-- Where the list of lanes is given by a function of the index, that function gives each lane. -/
theorem lane_of_toList_eq {B : Lanes} {f : Nat → Lane} (h : B.toList = (List.range 25).map f) {i : Nat} (hi : i < 25) :
    B.lane i = f i := by
  rw [Lanes.lane, List.getD_eq_getElem?_getD, h, List.getElem?_map, List.getElem?_range hi, Option.map_some, Option.getD_some]

/-- The same by the coordinates x and y of the index x + 5·y (10_state R35). -/
theorem lane_xy_of_toList_eq {B : Lanes} {f : Nat → Nat → Lane} (h : B.toList = (List.range 25).map fun i => f (i % 5) (i / 5))
    {x y : Nat} (hx : x < 5) (hy : y < 5) : B.lane (x + 5 * y) = f x y := by
  have hmod : (x + 5 * y) % 5 = x := by omega
  have hdiv : (x + 5 * y) / 5 = y := by omega
  rw [lane_of_toList_eq h (by omega), hmod, hdiv]

/-- Two states that agree on the 25 lanes are the same. -/
theorem lanes_ext {A B : Lanes} (h : ∀ i < 25, A.lane i = B.lane i) : A = B := by
  refine Lanes.toList_inj (List.ext_getElem? fun i => ?_)
  rcases Nat.lt_or_ge i 25 with hi | hi
  · rw [lanes_getElem? A hi, lanes_getElem? B hi, h i hi]
  · rw [List.getElem?_eq_none (by simpa using hi), List.getElem?_eq_none (by simpa using hi)]

/-- Every lane of the zero state is zero. -/
theorem lane_zero {i : Nat} (hi : i < 25) : Lanes.zero.lane i = 0 := lane_of_toList_eq (f := fun _ => 0) rfl hi

/-! ## ROTL64 -/

/-- ROTL64 is the rotation to the left, for offsets below the width (00_scope R11). -/
theorem rotl64_eq_rotateLeft (a : Lane) {n : Nat} (hn : n ≤ 63) : rotl64 a n = a.rotateLeft n := by
  rw [BitVec.rotateLeft_def, Nat.mod_eq_of_lt (by omega), rotl64]

/-- ROTL64 by 0 changes nothing: the right shift by the whole width leaves no bit. -/
theorem rotl64_zero (a : Lane) : rotl64 a 0 = a := by
  rw [rotl64, BitVec.shiftLeft_zero, BitVec.ushiftRight_eq_zero (by decide), BitVec.or_zero]

/-! ## θ -/

/-- θ by lane index (R112). -/
theorem theta_lane (A : Lanes) {i : Nat} (hi : i < 25) :
    (theta A).lane i = A.lane i ^^^ (columnOf A ((i % 5 + 4) % 5) ^^^ rotl64 (columnOf A ((i % 5 + 1) % 5)) 1) :=
  lane_of_toList_eq (f := fun i => A.lane i ^^^ (columnOf A ((i % 5 + 4) % 5) ^^^ rotl64 (columnOf A ((i % 5 + 1) % 5)) 1)) rfl hi

/-- Without column parities θ exclusive-ors zeros (R112). -/
theorem theta_eq_self {A : Lanes} (h : ∀ x < 5, columnOf A x = 0) : theta A = A := by
  refine lanes_ext fun i hi => ?_
  have hrot : rotl64 0 1 = 0 := by decide
  rw [theta_lane A hi, h _ (Nat.mod_lt _ (by decide)), h _ (Nat.mod_lt _ (by decide)), hrot, xor_zero, xor_zero]

/-- Settles O38: the formula by lane index; the zero state is one of those without column parities. -/
theorem thetaFormula : Obligations.ThetaFormula := by
  unfold Obligations.ThetaFormula
  exact ⟨fun A i => theta_lane A, theta_eq_self (by decide), fun A => theta_eq_self⟩

/-! ## ρ and π -/

/-- ρ by lane index: ROTL64 by the offset in the table (R113). -/
theorem rho_lane (A : Lanes) {i r : Nat} (h : rotationOffsets[i]? = some r) : (rho A).lane i = rotl64 (A.lane i) r := by
  obtain ⟨hi, -⟩ := List.getElem?_eq_some_iff.mp h
  have hlane : (rho A).lane i = rotl64 (A.lane i) (rotationOffsets.getD i 0) :=
    lane_of_toList_eq (f := fun i => rotl64 (A.lane i) (rotationOffsets.getD i 0)) rfl hi
  rw [hlane, List.getD_eq_getElem?_getD, h, Option.getD_some]

/-- Every rotation offset is below the width of a lane (R113). -/
theorem rotationOffsets_le : ∀ r ∈ rotationOffsets, r ≤ 63 := by decide

/-- π by the coordinates of the destination (R114). -/
theorem pi_lane (A : Lanes) {x y : Nat} (hx : x < 5) (hy : y < 5) :
    (pi A).lane (x + 5 * y) = A.lane ((x + 3 * y) % 5 + 5 * x) :=
  lane_xy_of_toList_eq (f := fun x y => A.lane ((x + 3 * y) % 5 + 5 * x)) rfl hx hy

/-- π by the coordinates of the source: the lane at (x, y) moves to (y, 2x + 3y) (R114). -/
theorem pi_lane_moved (A : Lanes) {x y : Nat} (hx : x < 5) (hy : y < 5) :
    (pi A).lane (y + 5 * ((2 * x + 3 * y) % 5)) = A.lane (x + 5 * y) := by
  have hsource : (y + 3 * ((2 * x + 3 * y) % 5)) % 5 = x := by omega
  rw [pi_lane A hy (Nat.mod_lt _ (by decide)), hsource]

/-- Settles O39: ρ by the offset of each lane, whose bound makes ROTL64 the rotation, and π by destination and by source. -/
theorem rhoAndPiFormulas : Obligations.RhoAndPiFormulas := by
  unfold Obligations.RhoAndPiFormulas
  refine ⟨fun A i r h => ?_, rfl, fun A => ?_, fun A x y => pi_lane A, fun A x y => pi_lane_moved A, fun x y hx hy => by omega⟩
  · have hr : r ≤ 63 := rotationOffsets_le r (List.mem_of_getElem? h)
    exact ⟨hr, by rw [rho_lane A h, rotl64_eq_rotateLeft _ hr]⟩
  · rw [rho_lane A (i := 0) (r := 0) rfl, rotl64_zero]

/-! ## χ and ι -/

/-- χ by lane index (R115). -/
theorem chi_lane (A : Lanes) {x y : Nat} (hx : x < 5) (hy : y < 5) :
    (chi A).lane (x + 5 * y) =
      A.lane (x + 5 * y) ^^^ (~~~A.lane ((x + 1) % 5 + 5 * y) &&& A.lane ((x + 2) % 5 + 5 * y)) :=
  lane_xy_of_toList_eq
    (f := fun x y => A.lane (x + 5 * y) ^^^ (~~~A.lane ((x + 1) % 5 + 5 * y) &&& A.lane ((x + 2) % 5 + 5 * y))) rfl hx hy

/-- A state of 25 equal lanes is a fixed point of χ, for a lane that χ's formula keeps when all its operands are that lane. -/
theorem chi_eq_self {A : Lanes} {a : Lane} (ha : a ^^^ (~~~a &&& a) = a) (h : ∀ i < 25, A.lane i = a) : chi A = A := by
  refine lanes_ext fun i hi => ?_
  have hlane := chi_lane A (x := i % 5) (y := i / 5) (by omega) (by omega)
  rw [Nat.mod_add_div, h i hi, h _ (by omega), h _ (by omega), ha] at hlane
  rw [hlane, h i hi]

/-- ι by lane index: the round constant goes into lane 0 only (R116). -/
theorem iota_lane (A : Lanes) (rc : Lane) {i : Nat} (hi : i < 25) :
    (iota A rc).lane i = if i = 0 then A.lane 0 ^^^ rc else A.lane i :=
  lane_of_toList_eq (f := fun i => if i = 0 then A.lane 0 ^^^ rc else A.lane i) rfl hi

/-- The bits a round constant may have set are those at 2^j - 1 (R116, R117). -/
theorem bit_of_roundConstant : ∀ ir < 24, ∀ b < 64, (roundConstant ir).getLsbD b = true → b ∈ [0, 1, 3, 7, 15, 31, 63] := by
  decide

/-- Settles O40: the formulas by lane index; all zeros and all ones are lanes the formula of χ keeps. -/
theorem chiAndIotaFormulas : Obligations.ChiAndIotaFormulas := by
  unfold Obligations.ChiAndIotaFormulas
  refine ⟨fun A x y => chi_lane A, chi_eq_self (by decide) fun i => lane_zero, fun A => chi_eq_self (by decide),
    fun A ir => iota_lane A _ (by decide), fun A ir i h1 hi => ?_, bit_of_roundConstant⟩
  rw [iota_lane A _ hi, if_neg (by omega)]

/-! ## The rounds and the tables -/

/-- Folding over 0, …, n - 1 is applying f with the index n times, from index 0 up. -/
theorem foldl_range_eq_rec {α : Type} (f : α → Nat → α) (a : α) (n : Nat) :
    (List.range n).foldl f a = Nat.rec (motive := fun _ => α) a (fun k b => f b k) n := by
  induction n with
  | zero => rfl
  | succ n ih => rw [List.range_succ, List.foldl_append, ih, List.foldl_cons, List.foldl_nil]

/-- Lane 0 of the permuted zero state (95_test_vectors V-P1). -/
theorem keccakF_zero_lane : (keccakF .zero).lane 0 = 0xF1258F7940E1DDE7 := by decide +kernel

/-- Settles O41: the round is its definition, and the fold of the 24 rounds is their iteration. -/
theorem permutationIsTwentyFourRounds : Obligations.PermutationIsTwentyFourRounds := by
  unfold Obligations.PermutationIsTwentyFourRounds
  exact ⟨fun _ _ => rfl, fun A => foldl_range_eq_rec round A 24, keccakF_zero_lane⟩

/-- Settles O42: both rules are run over the whole of their tables. -/
theorem generatingRulesGiveTheTables : Obligations.GeneratingRulesGiveTheTables := by
  unfold Obligations.GeneratingRulesGiveTheTables
  exact ⟨by decide, by decide⟩

end Sys2Proof.Proofs
end

