-- ==== Sys2Proof/Proofs/Bijection.lean ====
section
/-! PROOF. Each step mapping is a bijection on the states, and so is Keccak_f (spec/40_permutation.md R121). There are finitely many
states, so it is enough that no two have the same image. χ has an inverse row by row, ρ, π and ι one lane by lane. The work is in θ: it
changes every lane by an amount that the column parities fix, so it is enough that the parities can be had back from those of the image. -/

namespace Sys2Proof.Proofs

open Sys2Proof.Machine Sys2Proof.Safety

/-- There are finitely many states. -/
theorem finite_lanes : Finite Lanes :=
  .of_injective (fun A (i : Fin 25) => A.lane i) fun _ _ h => lanes_ext fun i hi => congrFun h ⟨i, hi⟩

/-- A mapping of the states that is injective is bijective. -/
theorem bijective_of_injective {f : Lanes → Lanes} (hf : Function.Injective f) : Function.Bijective f :=
  have := finite_lanes
  Finite.injective_iff_bijective.mp hf

/-- Bit z of a lane comes to bit z + n, modulo the width, of the lane rotated by n (00_scope R11). -/
theorem rotl64_getLsbD (a : Lane) {n z : Nat} (hn : n ≤ 63) (hz : z < 64) :
    (rotl64 a n).getLsbD ((z + n) % 64) = a.getLsbD z := by
  rw [rotl64_eq_rotateLeft a hn, BitVec.getLsbD_rotateLeft, Nat.mod_eq_of_lt (a := n) (by omega)]
  rcases Nat.lt_or_ge (z + n) 64 with h | h
  · have hge : ¬ z + n < n := by omega
    simp only [Nat.mod_eq_of_lt h, hge, decide_false, cond_false, h, decide_true, Bool.true_and, Nat.add_sub_cancel]
  · have hmod : (z + n) % 64 = z + n - 64 := by omega
    have hlt : z + n - 64 < n := by omega
    have hback : 64 - n + (z + n - 64) = z := by omega
    simp only [hmod, hlt, decide_true, cond_true, hback]

/-! ## θ -/

/-- θ exclusive-ors Dt[x] into each of the five lanes of column x, an odd number of times, and so into the parity of the column. -/
theorem columnOf_theta (A : Lanes) {x : Nat} (hx : x < 5) :
    columnOf (theta A) x = columnOf A x ^^^ (columnOf A ((x + 4) % 5) ^^^ rotl64 (columnOf A ((x + 1) % 5)) 1) := by
  have hlane {i : Nat} (hi : i < 25) (hix : i % 5 = x) : (theta A).lane i =
      A.lane i ^^^ (columnOf A ((x + 4) % 5) ^^^ rotl64 (columnOf A ((x + 1) % 5)) 1) := by
    rw [theta_lane A hi, hix]
  generalize columnOf A ((x + 4) % 5) ^^^ rotl64 (columnOf A ((x + 1) % 5)) 1 = e at *
  calc columnOf (theta A) x
      = (A.lane x ^^^ e) ^^^ (A.lane (x + 5) ^^^ e) ^^^ (A.lane (x + 10) ^^^ e) ^^^ (A.lane (x + 15) ^^^ e) ^^^
          (A.lane (x + 20) ^^^ e) := by
        rw [columnOf, hlane, hlane, hlane, hlane, hlane] <;> omega
    _ = columnOf A x ^^^ e ^^^ (e ^^^ e) ^^^ (e ^^^ e) := by
        rw [columnOf]
        ac_rfl
    _ = columnOf A x ^^^ e := by rw [LawfulXor.xor_self, xor_zero, xor_zero]

/-- Bit z of the parity of column x, both read cyclically: the parities as a torus of 5 by 64 bits. -/
def parityBit (A : Lanes) (x z : Nat) : Bool := (columnOf A (x % 5)).getLsbD (z % 64)

/-- θ on the torus of parities: the bit below is the bit 63 above. -/
theorem parityBit_theta (A : Lanes) (x z : Nat) :
    parityBit (theta A) x z = (parityBit A x z ^^ (parityBit A (x + 4) z ^^ parityBit A (x + 1) (z + 63))) := by
  have hz : z % 64 = ((z + 63) % 64 + 1) % 64 := by omega
  have hrot (a : Lane) : (rotl64 a 1).getLsbD (z % 64) = a.getLsbD ((z + 63) % 64) := by
    rw [hz, rotl64_getLsbD a (by decide) (Nat.mod_lt _ (by decide))]
  simp only [parityBit, columnOf_theta A (Nat.mod_lt x (by decide)), BitVec.getLsbD_xor, hrot, Nat.mod_add_mod]

/-- The bits where the parities of two states differ. -/
def parityDiff (A B : Lanes) (x z : Nat) : Bool := parityBit A x z ^^ parityBit B x z

/-- The differences are read cyclically too. -/
theorem parityDiff_congr (A B : Lanes) {x x' z z' : Nat} (hx : x % 5 = x' % 5) (hz : z % 64 = z' % 64) :
    parityDiff A B x z = parityDiff A B x' z' := by
  simp only [parityDiff, parityBit, hx, hz]

/-- θ is linear: the differences of the images are θ's map of the differences. -/
theorem parityDiff_theta (A B : Lanes) (x z : Nat) :
    parityDiff (theta A) (theta B) x z =
      (parityDiff A B x z ^^ (parityDiff A B (x + 4) z ^^ parityDiff A B (x + 1) (z + 63))) := by
  simp only [parityDiff, parityBit_theta, Bool.xor_assoc, Bool.xor_left_comm]

/-- Where θ gives one image, each difference is the sum of two others. -/
theorem parityDiff_of_theta_eq {A B : Lanes} (h : theta A = theta B) (x z : Nat) :
    parityDiff A B x z = (parityDiff A B (x + 4) z ^^ parityDiff A B (x + 1) (z + 63)) := by
  have hzero : parityDiff (theta A) (theta B) x z = false := by rw [h, parityDiff, Bool.xor_self]
  rwa [parityDiff_theta, bne_eq_false_iff_eq] at hzero

/-- Put into itself, such a recurrence doubles its offsets: the mixed term comes twice and cancels. -/
theorem recurrence_double {d : Nat → Nat → Bool} {a b c : Nat} (h : ∀ x z, d x z = (d (x + a) z ^^ d (x + b) (z + c))) (x z : Nat) :
    d x z = (d (x + 2 * a) z ^^ d (x + 2 * b) (z + 2 * c)) := by
  have ha := h (x + a) z
  have hb := h (x + b) (z + c)
  rw [h x z, ha, hb, Nat.add_right_comm x b a]
  simp only [Nat.two_mul, ← Nat.add_assoc]
  generalize d (x + a + b) (z + c) = mixed
  cases mixed <;> simp

/-- So its offsets may be multiplied by any power of two. -/
theorem recurrence_two_pow {d : Nat → Nat → Bool} {a b c : Nat} (h : ∀ x z, d x z = (d (x + a) z ^^ d (x + b) (z + c))) (n : Nat) :
    ∀ x z, d x z = (d (x + 2 ^ n * a) z ^^ d (x + 2 ^ n * b) (z + 2 ^ n * c)) := by
  induction n with
  | zero => simpa using h
  | succ n ih => simpa only [← Nat.mul_assoc, ← Nat.pow_succ'] using recurrence_double ih

/-- On a ring of five bits, each the sum of its two neighbours, every bit is 0. -/
theorem ring_of_five_eq_false : ∀ p q r s t : Bool,
    p = (q ^^ t) → q = (r ^^ p) → r = (s ^^ q) → s = (t ^^ r) → t = (p ^^ s) → p = false := by decide

/-- Where θ gives one image, the parities do not differ: with the offsets multiplied by 64 the rotation is gone, because 64 is the width
of a lane, and each bit is the sum of its two neighbours in a ring of five, because 64 · 4 ≡ 1 and 64 ≡ 4 modulo 5. -/
theorem parityDiff_eq_false {A B : Lanes} (h : theta A = theta B) (x z : Nat) : parityDiff A B x z = false := by
  have hring (y next prev : Nat) (hnext : (y + 1) % 5 = next % 5) (hprev : (y + 4) % 5 = prev % 5) :
      parityDiff A B y z = (parityDiff A B next z ^^ parityDiff A B prev z) := by
    rw [recurrence_two_pow (parityDiff_of_theta_eq h) 6 y z,
      parityDiff_congr A B (x := y + 2 ^ 6 * 4) (x' := next) (by omega) rfl,
      parityDiff_congr A B (x := y + 2 ^ 6 * 1) (x' := prev) (by omega) (z' := z) (by omega)]
  exact ring_of_five_eq_false _ _ _ _ _ (hring x (x + 1) (x + 4) rfl rfl) (hring (x + 1) (x + 2) x rfl (by omega))
    (hring (x + 2) (x + 3) (x + 1) rfl (by omega)) (hring (x + 3) (x + 4) (x + 2) rfl (by omega))
    (hring (x + 4) x (x + 3) (by omega) (by omega))

/-- States with one image under θ have the same column parities. -/
theorem columnOf_eq_of_theta_eq {A B : Lanes} (h : theta A = theta B) {x : Nat} (hx : x < 5) : columnOf A x = columnOf B x := by
  refine BitVec.eq_of_getLsbD_eq fun z hz => ?_
  have hdiff := parityDiff_eq_false h x z
  rwa [parityDiff, bne_eq_false_iff_eq, parityBit, parityBit, Nat.mod_eq_of_lt hx, Nat.mod_eq_of_lt hz] at hdiff

/-- θ is a bijection: the parities are had back, and with them what was exclusive-ored into each lane (R121). -/
theorem theta_bijective : Function.Bijective theta := by
  refine bijective_of_injective fun A B h => lanes_ext fun i hi => ?_
  have hlane : (theta A).lane i = (theta B).lane i := by rw [h]
  rw [theta_lane A hi, theta_lane B hi, columnOf_eq_of_theta_eq h (Nat.mod_lt _ (by decide)),
    columnOf_eq_of_theta_eq h (Nat.mod_lt _ (by decide))] at hlane
  exact (BitVec.xor_left_inj _).mp hlane

/-! ## ρ and π -/

/-- ROTL64 by a fixed offset is injective. -/
theorem rotl64_injective {n : Nat} (hn : n ≤ 63) {a b : Lane} (h : rotl64 a n = rotl64 b n) : a = b :=
  BitVec.eq_of_getLsbD_eq fun z hz => by rw [← rotl64_getLsbD a hn hz, h, rotl64_getLsbD b hn hz]

/-- ρ is a bijection: each lane is rotated by its own fixed offset (R121). -/
theorem rho_bijective : Function.Bijective rho := by
  refine bijective_of_injective fun A B h => lanes_ext fun i hi => ?_
  have hr : rotationOffsets[i]? = some rotationOffsets[i] := List.getElem?_eq_getElem hi
  have hlane : (rho A).lane i = (rho B).lane i := by rw [h]
  rw [rho_lane A hr, rho_lane B hr] at hlane
  exact rotl64_injective (rotationOffsets_le _ (List.getElem_mem hi)) hlane

/-- π is a bijection: every lane stands somewhere in the image (R121). -/
theorem pi_bijective : Function.Bijective pi := by
  refine bijective_of_injective fun A B h => lanes_ext fun i hi => ?_
  have hmoved (C : Lanes) : (pi C).lane (i / 5 + 5 * ((2 * (i % 5) + 3 * (i / 5)) % 5)) = C.lane i := by
    rw [pi_lane_moved C (Nat.mod_lt i (by decide)) (Nat.div_lt_of_lt_mul hi), Nat.mod_add_div]
  rw [← hmoved A, h, hmoved B]

/-! ## χ and ι -/

/-- A lane of a row, from the five lanes of the row's image under χ, from that lane on. -/
def chiInverseLane (a b c d e : Lane) : Lane := a ^^^ (~~~b &&& (c ^^^ (~~~d &&& e)))

/-- On one bit of a row, the inverse formula undoes χ's. -/
theorem chi_inverse_bit : ∀ a b c d e : Bool,
    ((a ^^ (!b && c)) ^^
      (!(b ^^ (!c && d)) && ((c ^^ (!d && e)) ^^ (!(d ^^ (!e && a)) && (e ^^ (!a && b)))))) = a := by
  decide

/-- On the lanes of a row, the inverse formula undoes χ's. -/
theorem chiInverseLane_chi (a b c d e : Lane) :
    chiInverseLane (a ^^^ (~~~b &&& c)) (b ^^^ (~~~c &&& d)) (c ^^^ (~~~d &&& e)) (d ^^^ (~~~e &&& a)) (e ^^^ (~~~a &&& b)) = a := by
  ext z hz
  simp only [chiInverseLane, BitVec.getElem_xor, BitVec.getElem_and, BitVec.getElem_not, chi_inverse_bit]

/-- The inverse of χ on one row. -/
def chiInverseRow (p : Plane) : Plane :=
  ⟨chiInverseLane p.x0 p.x1 p.x2 p.x3 p.x4, chiInverseLane p.x1 p.x2 p.x3 p.x4 p.x0, chiInverseLane p.x2 p.x3 p.x4 p.x0 p.x1,
    chiInverseLane p.x3 p.x4 p.x0 p.x1 p.x2, chiInverseLane p.x4 p.x0 p.x1 p.x2 p.x3⟩

/-- χ can be undone on each row. -/
theorem chiInverseRow_chiRow : Function.LeftInverse chiInverseRow chiRow := fun p => by
  simp only [chiInverseRow, chiRow, chiInverseLane_chi]

/-- What undoes a mapping of a plane undoes it on every plane of the state. -/
theorem mapPlanes_leftInverse {f g : Plane → Plane} (h : Function.LeftInverse g f) :
    Function.LeftInverse (Lanes.mapPlanes g) (Lanes.mapPlanes f) := fun A => by
  simp only [Lanes.mapPlanes, h _]

/-- χ is a bijection (R121). -/
theorem chi_bijective : Function.Bijective chi :=
  bijective_of_injective (mapPlanes_leftInverse chiInverseRow_chiRow).injective

/-- ι undoes itself. -/
theorem iota_involutive (rc : Lane) : Function.Involutive fun A => iota A rc := fun A => by
  simp only [iota, xor_cancel_right]

/-! ## The permutation -/

/-- A round is a bijection, as the composition of five (R111). -/
theorem round_bijective (ir : Nat) : Function.Bijective fun A => round A ir :=
  (iota_involutive (roundConstant ir)).bijective.comp
    (chi_bijective.comp (pi_bijective.comp (rho_bijective.comp theta_bijective)))

/-- A fold of bijections is a bijection. -/
theorem foldl_bijective {α β : Type} {f : α → β → α} (hf : ∀ b, Function.Bijective fun a => f a b) (l : List β) :
    Function.Bijective fun a => l.foldl f a := by
  induction l with
  | nil => exact Function.bijective_id
  | cons b l ih => exact ih.comp (hf b)

/-- Settles O43: the five step mappings one by one, and Keccak_f as a fold of rounds. -/
theorem keccakIsABijection : Obligations.KeccakIsABijection := by
  unfold Obligations.KeccakIsABijection
  exact ⟨theta_bijective, rho_bijective, pi_bijective, chi_bijective, fun rc => (iota_involutive rc).bijective,
    foldl_bijective round_bijective _⟩

end Sys2Proof.Proofs
end

