-- ==== Sys2Proof/Proofs/Sponge.lean ====
section
/-! PROOF. XorIn on the byte view and on the lanes (spec/41_sponge.md R131). -/

namespace Sys2Proof.Proofs

open Sys2Proof.Machine

/-- Byte k of the view after XorIn: the byte before, exclusive-ored with byte k of the string, or with 0 past its end (R131). -/
theorem stateBytes_xorIn_getElem? (A : Lanes) (s : List Byte) (k : Nat) :
    (stateBytes (xorIn A s))[k]? = (stateBytes A)[k]?.map fun t => t ^^^ s.getD k 0 := by
  rw [stateBytes_xorIn, xorBytes_getElem?]

/-- Where the byte of the string is 0, or past its end, XorIn leaves the byte of the view (R131). -/
theorem stateBytes_xorIn_of_zero (A : Lanes) {s : List Byte} {k : Nat} (h : s.getD k 0 = 0) :
    (stateBytes (xorIn A s))[k]? = (stateBytes A)[k]? := by
  rw [stateBytes_xorIn_getElem?, h]
  simp only [BitVec.ofNat_eq_ofNat, BitVec.xor_zero, Option.map_id']

/-- A lane is known by its eight bytes of the view (20_memory R61). -/
theorem lane_eq_of_stateBytes_eq {A B : Lanes} {i : Nat} (hi : i < 25)
    (h : ∀ j < 8, (stateBytes A)[8 * i + j]? = (stateBytes B)[8 * i + j]?) : A.lane i = B.lane i := by
  refine BitVec.eq_of_toNat_eq ?_
  rw [lane_toNat_eq_sum_bytes, lane_toNat_eq_sum_bytes (B.lane i)]
  refine congrArg List.sum (List.map_congr_left fun j hj => ?_)
  have hj : j < 8 := List.mem_range.mp hj
  rw [← stateBytes_getD_of_lane A hi hj, ← stateBytes_getD_of_lane B hi hj, List.getD_eq_getElem?_getD,
    List.getD_eq_getElem?_getD, h j hj]

/-- Settles O45: the view after XorIn byte by byte, and a lane by its eight bytes. -/
theorem xorInChangesTheFirstBytes : Obligations.XorInChangesTheFirstBytes := by
  unfold Obligations.XorInChangesTheFirstBytes
  refine ⟨fun A s k t b _ ht hb => ?_, fun A s k hk => ?_, fun A s i hi hzero => ?_, xorIn_nil⟩
  · rw [stateBytes_xorIn_getElem?, ht, List.getD_eq_getElem?_getD, hb, Option.map_some, Option.getD_some]
  · exact stateBytes_xorIn_of_zero A (List.getD_eq_default s 0 hk)
  · exact lane_eq_of_stateBytes_eq hi fun j hj => stateBytes_xorIn_of_zero A (hzero j hj)

end Sys2Proof.Proofs
end

