-- ==== Sys2Proof/Proofs/Squeeze.lean ====
section
/-! PROOF. SQUEEZE (spec/43_engine_commands.md R165): its words, its answers, and the context it leaves. The output, the state and the
cursor come from the closed form of SqueezeOut (spec/41_sponge.md R136), on the context finalized first where it was ABSORBING. -/

namespace Sys2Proof.Proofs

open Sys2Proof.Machine Sys2Proof.Safety

/-! ## Words -/

/-- A word with SQUEEZE's OPC is SQUEEZE where AUX and the reserved bits are 0, and else ILLEGAL (30_encoding R84, R85). -/
theorem instrOf_of_squeeze_opc {w : Word} (h : opcField w = 4) (operand : Word) (payload : List Byte) :
    instrOf w operand payload =
      if auxField w = 0 ∧ rsvField w = 0 then some (.squeeze (ctxField w) (hexField w) operand) else none := by
  rw [instrOf_eq, h]
  by_cases hr : rsvField w = 0
  · by_cases ha : auxField w = 0 <;> simp [hr, ha]
  · rw [if_pos hr, if_neg fun hlegal => hr hlegal.2]

/-! ## Answers -/

/-- SQUEEZE of an index that names no context raises BAD_CONTEXT. -/
theorem execSqueeze_of_badContext {s : State} {c : CtxIndex} (h : s.nctx ≤ c.toNat) (hex : Bool) (n : Word) :
    execSqueeze c hex n s = .next (s.respond .badContext []) := by
  have hnone : s.context c = none := (State.context_eq_none s c).mpr h
  simp only [execSqueeze, hnone, raise_eq]

/-- SQUEEZE of a context that is there, in the order of its checks: UNCONFIGURED, STATE_ERROR, or the next N bytes (R165). -/
theorem execSqueeze_of_context {s : State} {c : CtxIndex} {C : Context} (hC : s.context c = some C) (hex : Bool) (n : Word) :
    execSqueeze c hex n s =
      if C.mode = .unconfigured then .next (s.respond .unconfigured [])
      else if C.digestSize ≠ 0 then .next (s.respond .stateError [])
      else .next ((s.setContext c (C.readyToSqueeze.afterSqueeze n.toNat)).respond .ok
        (outputForm hex (C.readyToSqueeze.squeezed n.toNat).out)) := by
  have same {C' : Context} (hC' : s.context c = some C') : C' = C := Option.some.inj (hC'.symm.trans hC)
  rcases execSqueeze_cases c hex n s with ⟨hnone, -⟩ | ⟨C', hC', hm, h⟩ | ⟨C', hC', hm, hD, h⟩ | ⟨C', hC', hm, hD, h⟩
  · simp [hC] at hnone
  · obtain rfl := same hC'
    rw [h, if_pos hm]
  · obtain rfl := same hC'
    rw [h, if_neg hm, if_pos hD]
  · obtain rfl := same hC'
    rw [h, if_neg hm, if_neg (not_not.mpr hD)]

/-! ## The context squeezed -/

/-- In ABSORBING, SQUEEZE draws from the finalized context (R165). -/
theorem readyToSqueeze_of_absorbing {C : Context} (h : C.mode = .absorbing) : C.readyToSqueeze = C.startSqueezing := by
  simp only [Context.readyToSqueeze, h]

/-- In SQUEEZING, SQUEEZE draws from the context as it is (R165). -/
theorem readyToSqueeze_of_squeezing {C : Context} (h : C.mode = .squeezing) : C.readyToSqueeze = C := by
  simp only [Context.readyToSqueeze, h]

/-- The bytes of the stream taken from the block SqueezeOut stops in are at most a block (41_sponge R136). -/
theorem stream_cursor_le {R : Nat} (hR : 1 ≤ R) (m : Nat) : m - R * ((m - 1) / R) ≤ R := by
  have h : m - 1 < R * ((m - 1) / R + 1) := Nat.lt_mul_div_succ (m - 1) hR
  rw [Nat.mul_succ] at h
  omega

/-- The cursor SqueezeOut leaves (41_sponge R136): it fits the byte that holds it, because a rate does. -/
theorem afterSqueeze_sqpos_toNat {C : Context} (hR1 : 1 ≤ C.rate.toNat) (hR : C.rate.toNat ≤ Config.rateMax)
    (hp : C.sqpos.toNat ≤ C.rate.toNat) (n : Nat) :
    (C.afterSqueeze n).sqpos.toNat =
      C.sqpos.toNat + n - C.rate.toNat * ((C.sqpos.toNat + n - 1) / C.rate.toNat) := by
  have hle := stream_cursor_le hR1 (C.sqpos.toNat + n)
  have hlt := C.rate.isLt
  rw [Context.afterSqueeze_sqpos, Context.squeezed_eq hR1 hR hp, BitVec.toNat_ofNat]
  exact Nat.mod_eq_of_lt (Nat.lt_of_le_of_lt hle hlt)

/-- Writing one context and answering leaves every other context. -/
theorem onlyContext_setContext_respond (s : State) (c : CtxIndex) (D : Context) (st : Status) (out : List Byte) :
    onlyContext c s ((s.setContext c D).respond st out) :=
  ⟨State.setContext_nctx s c D, rfl, fun _ hk => State.setContext_context_ne s D hk⟩

/-- SQUEEZE leaves the configuration of the context as it was (R165). -/
theorem configRow_readyToSqueeze_afterSqueeze (C : Context) (n : Nat) : configRow (C.readyToSqueeze.afterSqueeze n) = configRow C := by
  simp [configRow]

/-- Settles O14: the checks in their order; and past them, the closed form of SqueezeOut on the context made ready. -/
theorem squeezeFollowsItsRule : Obligations.SqueezeFollowsItsRule := by
  unfold Obligations.SqueezeFollowsItsRule
  refine ⟨fun w operand payload h => instrOf_of_squeeze_opc h operand payload, fun _ _ _ => rfl,
    fun c hex n s h => execSqueeze_of_badContext h hex n,
    fun c hex n s C hC => ⟨fun hm => ?_, fun hm hD => ?_⟩, fun c hex n s C hC hm hD hR1 hR hpos => ?_⟩
  · exact (execSqueeze_of_context hC hex n).trans (if_pos hm)
  · exact (execSqueeze_of_context hC hex n).trans ((if_neg hm).trans (if_pos hD))
  · have hexec := (execSqueeze_of_context hC hex n).trans ((if_neg hm).trans (if_neg (not_not.mpr hD)))
    have hrate : C.readyToSqueeze.rate = C.rate := Context.readyToSqueeze_rate C
    have hp : C.readyToSqueeze.sqpos.toNat ≤ C.readyToSqueeze.rate.toNat := by
      rw [hrate]
      exact readyToSqueeze_sqpos_le hm hpos
    have hout := Context.squeezed_eq (hrate ▸ hR1) (hrate ▸ hR) hp n.toNat
    have hcursor := afterSqueeze_sqpos_toNat (hrate ▸ hR1) (hrate ▸ hR) hp n.toNat
    rw [hrate] at hout hcursor
    refine ⟨_, C.readyToSqueeze.afterSqueeze n.toNat, C.readyToSqueeze.lanes, C.readyToSqueeze.sqpos.toNat, hexec, rfl,
      onlyContext_setContext_respond s c _ _ _, fun ha => ?_, fun hs => ?_, ?_, State.setContext_context_self hC,
      Context.readyToSqueeze_mode hm, configRow_readyToSqueeze_afterSqueeze C _, Context.readyToSqueeze_buf C, ?_, hcursor⟩
    · rw [readyToSqueeze_of_absorbing ha]
      exact ⟨rfl, rfl, rfl⟩
    · rw [readyToSqueeze_of_squeezing hs]
      exact ⟨rfl, rfl, rfl⟩
    · rw [State.respond_responses, hout]
      rfl
    · rw [Context.afterSqueeze_lanes, hout]

end Sys2Proof.Proofs
end

