-- ==== Sys2Proof/Proofs/EngineCommands.lean ====
section
/-! PROOF. INIT, UPDATE, DIGEST, COPY, FREE and QUERY (spec/43_engine_commands.md R162 to R164, R166 to R168): the words of each, its
errors, and what it leaves. The answers come from the cases of each meaning, and the fields of the context left from the closed forms
of the operations on one context. -/

namespace Sys2Proof.Proofs

open Sys2Proof.Machine Sys2Proof.Safety

/-! ## Words -/

/-- What a word stands for where its reserved bits are 0, it stands for with that as one more condition: a reserved bit makes it
ILLEGAL (30_encoding R84 (b)). -/
theorem instrOf_eq_ite_of_unreserved {w operand : Word} {payload : List Byte} {p : Prop} [Decidable p] {i : Instr}
    (h : rsvField w = 0 → instrOf w operand payload = if p then some i else none) :
    instrOf w operand payload = if p ∧ rsvField w = 0 then some i else none := by
  by_cases hr : rsvField w = 0
  · simp only [h hr, hr, and_true]
  · rw [instrOf_of_reserved hr, if_neg fun hlegal => hr hlegal.2]

/-- A word with INIT's OPC is INIT where HEX and the reserved bits are 0, and else ILLEGAL (30_encoding R84, R85). -/
theorem instrOf_of_init_opc {w : Word} (h : opcField w = 1) (operand : Word) (payload : List Byte) :
    instrOf w operand payload =
      if hexField w = false ∧ rsvField w = 0 then some (.init (ctxField w) (auxField w)) else none :=
  instrOf_eq_ite_of_unreserved fun hr => by simp [instrOf_eq, h, hr]

/-- A word with UPDATE's OPC is UPDATE where AUX, HEX and the reserved bits are 0, and else ILLEGAL (30_encoding R84, R85). -/
theorem instrOf_of_update_opc {w : Word} (h : opcField w = 2) (operand : Word) (payload : List Byte) :
    instrOf w operand payload =
      if auxField w = 0 ∧ hexField w = false ∧ rsvField w = 0 then some (.update (ctxField w) operand payload) else none := by
  simp only [← and_assoc]
  exact instrOf_eq_ite_of_unreserved fun hr => by simp [instrOf_eq, h, hr]

/-- A word with DIGEST's OPC is DIGEST where AUX and the reserved bits are 0, and else ILLEGAL (30_encoding R84, R85). -/
theorem instrOf_of_digest_opc {w : Word} (h : opcField w = 3) (operand : Word) (payload : List Byte) :
    instrOf w operand payload =
      if auxField w = 0 ∧ rsvField w = 0 then some (.digest (ctxField w) (hexField w)) else none :=
  instrOf_eq_ite_of_unreserved fun hr => by simp [instrOf_eq, h, hr]

/-- A word with COPY's OPC is COPY where HEX and the reserved bits are 0, and else ILLEGAL (30_encoding R84, R85). -/
theorem instrOf_of_copy_opc {w : Word} (h : opcField w = 5) (operand : Word) (payload : List Byte) :
    instrOf w operand payload =
      if hexField w = false ∧ rsvField w = 0 then some (.copy (ctxField w) (auxField w)) else none :=
  instrOf_eq_ite_of_unreserved fun hr => by simp [instrOf_eq, h, hr]

/-- A word with FREE's OPC is FREE where AUX, HEX and the reserved bits are 0, and else ILLEGAL (30_encoding R84, R85). -/
theorem instrOf_of_free_opc {w : Word} (h : opcField w = 6) (operand : Word) (payload : List Byte) :
    instrOf w operand payload =
      if auxField w = 0 ∧ hexField w = false ∧ rsvField w = 0 then some (.free (ctxField w)) else none := by
  simp only [← and_assoc]
  exact instrOf_eq_ite_of_unreserved fun hr => by simp [instrOf_eq, h, hr]

/-- A word with QUERY's OPC is QUERY where AUX, HEX and the reserved bits are 0, and else ILLEGAL (30_encoding R84, R85). -/
theorem instrOf_of_query_opc {w : Word} (h : opcField w = 7) (operand : Word) (payload : List Byte) :
    instrOf w operand payload =
      if auxField w = 0 ∧ hexField w = false ∧ rsvField w = 0 then some (.query (ctxField w)) else none := by
  simp only [← and_assoc]
  exact instrOf_eq_ite_of_unreserved fun hr => by simp [instrOf_eq, h, hr]

/-! ## Facts the commands share -/

/-- An index below NCTX names a context. -/
theorem exists_context {s : State} {c : CtxIndex} (h : c.toNat < s.nctx) : ∃ C, s.context c = some C := by
  rw [← Option.isSome_iff_exists, State.context_isSome, decide_eq_true h]

/-- A command that names an index not below NCTX raises BAD_CONTEXT before it checks anything else (60_exceptions R212, R213). -/
theorem exec_of_badContext {i : Instr} {s : State} {c : CtxIndex} (hc : c ∈ namedContexts i) (h : s.nctx ≤ c.toNat) :
    exec i s = .next (s.respond .badContext []) := by
  have hnone : s.context c = none := (State.context_eq_none s c).mpr h
  cases i with
  | init d v =>
    obtain rfl : c = d := List.mem_singleton.mp hc
    simpa [exec, hnone] using execInit_cases c v s
  | update d len payload =>
    obtain rfl : c = d := List.mem_singleton.mp hc
    simpa [exec, hnone] using execUpdate_cases c len payload s
  | digest d hex =>
    obtain rfl : c = d := List.mem_singleton.mp hc
    simpa [exec, hnone] using execDigest_cases c hex s
  | squeeze d hex n =>
    obtain rfl : c = d := List.mem_singleton.mp hc
    simpa [exec, hnone] using execSqueeze_cases c hex n s
  | copy dst src =>
    obtain rfl | rfl : c = dst ∨ c = src := by simpa [namedContexts] using hc
    · simpa [exec, hnone] using execCopy_cases c src s
    · simpa [exec, hnone] using execCopy_cases dst c s
  | free d =>
    obtain rfl : c = d := List.mem_singleton.mp hc
    simpa [exec, hnone] using execFree_cases c s
  | query d =>
    obtain rfl : c = d := List.mem_singleton.mp hc
    simpa [exec, hnone] using execQuery_cases c s

/-- An answer alone leaves every context. -/
theorem onlyContext_respond (s : State) (c : CtxIndex) (st : Status) (out : List Byte) : onlyContext c s (s.respond st out) :=
  ⟨rfl, rfl, fun _ _ => rfl⟩

/-- Writing one context, drawing free values and answering leaves every other context. -/
theorem onlyContext_setContext_drawn_respond (s : State) (c : CtxIndex) (D : Context) (st : Status) (out : List Byte) :
    onlyContext c s ((s.setContext c D).drawn.respond st out) :=
  onlyContext_setContext_respond s c D st out

/-! ## INIT -/

/-- INIT of a context that is there with an id some row has configures the context by that row (R162). -/
theorem execInit_of_row {s : State} {c : CtxIndex} {v : VariantId} {C : Context} {row : VariantRow} (hC : s.context c = some C)
    (hrow : s.row v = some row) :
    execInit c v s = .next ((s.setContext c (C.configure row (freeSqpos s.draws))).drawn.respond .ok []) := by
  simpa [hC, hrow] using execInit_cases c v s

/-- The row found for a variant id has that id. -/
theorem id_of_tableRow {table : List VariantRow} {v : VariantId} {row : VariantRow} (h : tableRow table v = some row) : row.id = v := by
  have hid : (row.id == v) = true := List.find?_some (p := fun r : VariantRow => r.id == v) h
  exact beq_iff_eq.mp hid

/-- Settles O11: the two errors in their order, and the context as INIT configures it. -/
theorem initFollowsItsRule : Obligations.InitFollowsItsRule := by
  unfold Obligations.InitFollowsItsRule
  refine ⟨fun w operand payload h => instrOf_of_init_opc h operand payload, fun _ _ => rfl,
    fun c v s h => exec_of_badContext (List.mem_singleton.mpr rfl) h, fun c v s hc hrow => execInit_of_unassigned hc hrow,
    fun c v s row hc hrow => ?_⟩
  obtain ⟨C, hC⟩ := exists_context hc
  exact ⟨_, C.configure row (freeSqpos s.draws), execInit_of_row hC hrow, rfl, rfl, onlyContext_setContext_drawn_respond s c _ _ _,
    State.setContext_context_self hC, rfl, id_of_tableRow hrow, rfl, rfl, rfl, rfl, fun _ => lane_zero, rfl⟩

/-! ## UPDATE -/

/-- MemRead of the whole payload is the payload (00_scope R13). -/
theorem memRead_all {payload : List Byte} {n : Nat} (h : payload.length = n) : memRead payload 0 n = payload := by
  rw [memRead, List.drop_zero, List.take_of_length_le h.le]

/-- UPDATE of an UNCONFIGURED context raises UNCONFIGURED (R163). -/
theorem execUpdate_of_unconfigured {s : State} {c : CtxIndex} {C : Context} (hC : s.context c = some C) (hm : C.mode = .unconfigured)
    (len : Word) (payload : List Byte) : execUpdate c len payload s = .next (s.respond .unconfigured []) := by
  simpa [hC, hm] using execUpdate_cases c len payload s

/-- UPDATE of a SQUEEZING context raises STATE_ERROR (R163). -/
theorem execUpdate_of_squeezing {s : State} {c : CtxIndex} {C : Context} (hC : s.context c = some C) (hm : C.mode = .squeezing)
    (len : Word) (payload : List Byte) : execUpdate c len payload s = .next (s.respond .stateError []) := by
  simpa [hC, hm] using execUpdate_cases c len payload s

/-- UPDATE of an ABSORBING context absorbs the payload, which has LEN bytes (R163). -/
theorem execUpdate_of_absorbing {s : State} {c : CtxIndex} {C : Context} (hC : s.context c = some C) (hm : C.mode = .absorbing)
    {len : Word} {payload : List Byte} (hlen : payload.length = len.toNat) :
    execUpdate c len payload s = .next ((s.setContext c (C.absorb payload)).respond .ok []) := by
  simpa [hC, hm, memRead_all hlen] using execUpdate_cases c len payload s

/-- Settles O12: the errors by mode; and past them, the closed form of the absorb loop, which for LEN = 0 leaves the context. -/
theorem updateFollowsItsRule : Obligations.UpdateFollowsItsRule := by
  unfold Obligations.UpdateFollowsItsRule
  refine ⟨fun w operand payload h => instrOf_of_update_opc h operand payload, fun c len p hlen => ?_,
    fun c len p s h => exec_of_badContext (List.mem_singleton.mpr rfl) h,
    fun c len p s C hC => ⟨fun hm => execUpdate_of_unconfigured hC hm len p, fun hm => execUpdate_of_squeezing hC hm len p⟩,
    fun c len p s C hC hm hR1 hR _ hlen => ?_, fun c s C hC hm hR hlt => ?_⟩
  · simp only [encode, encodeOperands, List.length_append, wordBytes_length, hlen]
    omega
  · obtain ⟨hlanes, hpending, hbuflen⟩ := Context.absorb_eq hR1 hR p
    exact ⟨_, C.absorb p, execUpdate_of_absorbing hC hm hlen, rfl, rfl, onlyContext_setContext_respond s c _ _ _,
      State.setContext_context_self hC, hm, rfl, rfl, hlanes, hpending, hbuflen⟩
  · have hexec : execUpdate c 0 [] s = .next ((s.setContext c (C.absorb [])).respond .ok []) :=
      execUpdate_of_absorbing hC hm rfl
    rw [Context.absorb_nil hR hlt, State.setContext_same hC] at hexec
    exact hexec

/-! ## DIGEST -/

/-- DIGEST of an UNCONFIGURED context raises UNCONFIGURED (R164). -/
theorem execDigest_of_unconfigured {s : State} {c : CtxIndex} {C : Context} (hC : s.context c = some C) (hm : C.mode = .unconfigured)
    (hex : Bool) : execDigest c hex s = .next (s.respond .unconfigured []) := by
  simpa [hC, hm] using execDigest_cases c hex s

/-- DIGEST of a context of an XOF variant raises STATE_ERROR (R164). -/
theorem execDigest_of_xof {s : State} {c : CtxIndex} {C : Context} (hC : s.context c = some C) (hm : C.mode ≠ .unconfigured)
    (hD : C.digestSize = 0) (hex : Bool) : execDigest c hex s = .next (s.respond .stateError []) := by
  simpa [hC, hm, hD] using execDigest_cases c hex s

/-- DIGEST of a context of a fixed-output variant outputs the digest and writes nothing (R164). -/
theorem execDigest_of_fixed {s : State} {c : CtxIndex} {C : Context} (hC : s.context c = some C) (hm : C.mode ≠ .unconfigured)
    (hD : C.digestSize ≠ 0) (hex : Bool) : execDigest c hex s = .next (s.respond .ok (outputForm hex C.digest)) := by
  have hD' : C.digestSize ≠ 0#8 := hD
  simpa [hC, hm, hD'] using execDigest_cases c hex s

/-- Settles O13: the checks in their order; and past them, the closed form of DigestOut on the finalized state. -/
theorem digestFollowsItsRule : Obligations.DigestFollowsItsRule := by
  unfold Obligations.DigestFollowsItsRule
  refine ⟨fun w operand payload h => instrOf_of_digest_opc h operand payload, fun _ _ => rfl,
    fun c hex s h => exec_of_badContext (List.mem_singleton.mpr rfl) h,
    fun c hex s C hC => ⟨fun hm => execDigest_of_unconfigured hC hm hex, fun hm hD => execDigest_of_xof hC hm hD hex,
      fun hm hD hR1 hR => ?_⟩⟩
  have hexec := execDigest_of_fixed hC hm hD hex
  rw [Context.digest_eq hR1 hR] at hexec
  exact hexec

/-! ## COPY -/

/-- COPY from an UNCONFIGURED source raises UNCONFIGURED, whatever the destination (R166). -/
theorem execCopy_of_unconfigured {s : State} {dst src : CtxIndex} {C S : Context} (hC : s.context dst = some C)
    (hS : s.context src = some S) (hm : S.mode = .unconfigured) : execCopy dst src s = .next (s.respond .unconfigured []) := by
  simpa [hC, hS, hm] using execCopy_cases dst src s

/-- COPY of a configured context onto itself changes nothing and answers OK (R166). -/
theorem execCopy_self {s : State} {c : CtxIndex} {S : Context} (hS : s.context c = some S) (hm : S.mode ≠ .unconfigured) :
    execCopy c c s = .next (s.respond .ok []) := by
  simpa [hS, hm] using execCopy_cases c c s

/-- Settles O15: the checks in their order, the copy onto itself, and the destination as the source's copy. -/
theorem copyFollowsItsRule : Obligations.CopyFollowsItsRule := by
  unfold Obligations.CopyFollowsItsRule
  refine ⟨fun w operand payload h => instrOf_of_copy_opc h operand payload, fun _ _ => rfl, fun dst src s h => ?_,
    fun dst src s S hdst hS => ?_⟩
  · rcases h with hdst | hsrc
    · exact exec_of_badContext (List.mem_cons_self ..) hdst
    · exact exec_of_badContext (List.mem_cons_of_mem _ (List.mem_singleton.mpr rfl)) hsrc
  · obtain ⟨C, hC⟩ := exists_context hdst
    refine ⟨execCopy_of_unconfigured hC hS, fun hm he => ?_, fun hm hlen hne => ?_⟩
    · subst he
      exact execCopy_self hS hm
    · exact ⟨_, C.copyFrom S, execCopy_of_configured hne hC hS hm, rfl, rfl, onlyContext_setContext_respond s dst _ _ _,
        State.setContext_context_self hC, rfl, rfl, rfl, rfl, Context.pending_copyFrom C hlen, rfl⟩

/-! ## FREE -/

/-- FREE of an UNCONFIGURED context changes nothing and answers OK (R167). -/
theorem execFree_of_unconfigured {s : State} {c : CtxIndex} {C : Context} (hC : s.context c = some C)
    (hm : C.mode = .unconfigured) : execFree c s = .next (s.respond .ok []) := by
  simpa [hC, hm] using execFree_cases c s

/-- FREE of a configured context leaves a freed one in its place (R167). -/
theorem execFree_of_configured {s : State} {c : CtxIndex} {C : Context} (hC : s.context c = some C)
    (hm : C.mode ≠ .unconfigured) :
    execFree c s = .next ((s.setContext c (Context.freed s.draws)).drawn.respond .ok []) := by
  simpa [hC, hm] using execFree_cases c s

/-- Settles O16: an UNCONFIGURED context stays as it was, and a configured one is freed. -/
theorem freeFollowsItsRule : Obligations.FreeFollowsItsRule := by
  unfold Obligations.FreeFollowsItsRule
  refine ⟨fun w operand payload h => instrOf_of_free_opc h operand payload, fun _ => rfl,
    fun c s h => exec_of_badContext (List.mem_singleton.mpr rfl) h, fun c s C hC hm => execFree_of_unconfigured hC hm,
    fun c s hc => ?_⟩
  obtain ⟨C, hC⟩ := exists_context hc
  by_cases hm : C.mode = .unconfigured
  · exact ⟨_, C, execFree_of_unconfigured hC hm, rfl, rfl, onlyContext_respond s c _ _, hC, hm⟩
  · exact ⟨_, Context.freed s.draws, execFree_of_configured hC hm, rfl, rfl, onlyContext_setContext_drawn_respond s c _ _ _,
      State.setContext_context_self hC, rfl⟩

/-! ## QUERY -/

/-- QUERY of a context that is there outputs the bytes of its CTXINFO and writes nothing (R168). -/
theorem execQuery_of_info {s : State} {c : CtxIndex} {C : Context} {out : List Byte} (hC : s.context c = some C) (h : C.info = out) :
    execQuery c s = .next (s.respond .ok out) := by
  simpa [hC, h] using execQuery_cases c s

/-- CTXINFO of an UNCONFIGURED context: 0xFF, and 0 in the other bytes (10_state R43). -/
theorem info_of_unconfigured {C : Context} (hm : C.mode = .unconfigured) : C.info = [0xFF, 0, 0, 0, 0, 0, 0, 0] := by
  simp only [Context.info, hm]

/-- CTXINFO of a configured context: its configuration, its mode and its capacity in bytes (10_state R43). -/
theorem info_of_configured {C : Context} {m : Mode} (hm : C.mode = m) (hne : m ≠ .unconfigured) :
    C.info = [C.var.setWidth 8, m.code, C.rate, C.digestSize, C.blockSize, C.suffix, BitVec.ofNat 8 (200 - C.rate.toNat), 0] := by
  cases m with
  | unconfigured => exact absurd rfl hne
  | absorbing | squeezing =>
    simp only [Context.info, hm]
    rfl

/-- Settles O17: the bytes of CTXINFO in each mode. -/
theorem queryFollowsItsRule : Obligations.QueryFollowsItsRule := by
  unfold Obligations.QueryFollowsItsRule
  exact ⟨fun w operand payload h => instrOf_of_query_opc h operand payload, fun _ => rfl,
    fun c s h => exec_of_badContext (List.mem_singleton.mpr rfl) h,
    fun c s C hC => ⟨fun hm => execQuery_of_info hC (info_of_unconfigured hm),
      fun hm => execQuery_of_info hC (info_of_configured hm (by decide)),
      fun hm => execQuery_of_info hC (info_of_configured hm (by decide))⟩⟩

end Sys2Proof.Proofs
end

