-- ==== Sys2Proof/Proofs/Exceptions.lean ====
section
/-! PROOF. Statuses (spec/60_exceptions.md R211 to R213): each command answers with the first status that applies, in the order of R212,
and a command that answers with any status but OK leaves nothing behind but that answer and the loss of its frame. -/

namespace Sys2Proof.Proofs

open Sys2Proof.Machine Sys2Proof.Safety

/-! ## The status expected of each command -/

/-- BAD_CONTEXT comes before every other status of a command (R212). -/
theorem expectedStatus_of_badContext {i : Instr} {s : State} {c : CtxIndex} (hc : c ∈ namedContexts i) (h : s.context c = none) :
    expectedStatus i s = .badContext :=
  if_pos (List.any_eq_true.mpr ⟨c, hc, decide_eq_true ((State.context_eq_none s c).mp h)⟩)

/-- With every context it names there, a command answers by the checks that come after BAD_CONTEXT (R212). -/
theorem expectedStatus_of_contexts {i : Instr} {s : State} (hctx : ∀ c ∈ namedContexts i, s.context c ≠ none) :
    expectedStatus i s =
      if configErrorApplies i then .configError
      else if unconfiguredApplies i s then .unconfigured
      else if stateErrorApplies i s then .stateError
      else .ok := by
  refine if_neg fun hbad => ?_
  obtain ⟨c, hc, hle⟩ := List.any_eq_true.mp hbad
  exact hctx c hc ((State.context_eq_none s c).mpr (of_decide_eq_true hle))

/-- INIT of a context that is there can only fail for its variant id (R213). -/
theorem expectedStatus_init {s : State} {c : CtxIndex} {C : Context} (hC : s.context c = some C) (v : VariantId) :
    expectedStatus (.init c v) s = if v ∈ unassignedIds then .configError else .ok := by
  rw [expectedStatus_of_contexts (by simp [namedContexts, hC])]
  simp [configErrorApplies, unconfiguredApplies, neededContext, stateErrorApplies]

/-- UPDATE of a context that is there (R213). -/
theorem expectedStatus_update {s : State} {c : CtxIndex} {C : Context} (hC : s.context c = some C) (len : Word)
    (payload : List Byte) :
    expectedStatus (.update c len payload) s =
      if C.mode = .unconfigured then .unconfigured else if C.mode = .squeezing then .stateError else .ok := by
  rw [expectedStatus_of_contexts (by simp [namedContexts, hC])]
  simp [configErrorApplies, unconfiguredApplies, neededContext, stateErrorApplies, hC]

/-- DIGEST of a context that is there (R213). -/
theorem expectedStatus_digest {s : State} {c : CtxIndex} {C : Context} (hC : s.context c = some C) (hex : Bool) :
    expectedStatus (.digest c hex) s =
      if C.mode = .unconfigured then .unconfigured else if C.digestSize = 0 then .stateError else .ok := by
  rw [expectedStatus_of_contexts (by simp [namedContexts, hC])]
  simp [configErrorApplies, unconfiguredApplies, neededContext, stateErrorApplies, hC]

/-- SQUEEZE of a context that is there (R213). -/
theorem expectedStatus_squeeze {s : State} {c : CtxIndex} {C : Context} (hC : s.context c = some C) (hex : Bool) (n : Word) :
    expectedStatus (.squeeze c hex n) s =
      if C.mode = .unconfigured then .unconfigured else if C.digestSize ≠ 0 then .stateError else .ok := by
  rw [expectedStatus_of_contexts (by simp [namedContexts, hC])]
  simp [configErrorApplies, unconfiguredApplies, neededContext, stateErrorApplies, hC]

/-- COPY between contexts that are there can only fail for its source (R213). -/
theorem expectedStatus_copy {s : State} {dst src : CtxIndex} {C S : Context} (hC : s.context dst = some C)
    (hS : s.context src = some S) :
    expectedStatus (.copy dst src) s = if S.mode = .unconfigured then .unconfigured else .ok := by
  rw [expectedStatus_of_contexts (by simp [namedContexts, hC, hS])]
  simp [configErrorApplies, unconfiguredApplies, neededContext, stateErrorApplies, hS]

/-- FREE of a context that is there cannot fail (R213). -/
theorem expectedStatus_free {s : State} {c : CtxIndex} {C : Context} (hC : s.context c = some C) :
    expectedStatus (.free c) s = .ok :=
  expectedStatus_of_contexts (by simp [namedContexts, hC])

/-- QUERY of a context that is there cannot fail (R213). -/
theorem expectedStatus_query {s : State} {c : CtxIndex} {C : Context} (hC : s.context c = some C) :
    expectedStatus (.query c) s = .ok :=
  expectedStatus_of_contexts (by simp [namedContexts, hC])

/-! ## The status a command answers with -/

/-- The outcome is a next state with one more response than `s`, whose status is `st` and whose output is empty unless `st` is OK. -/
def AnswersWith (s : State) (st : Status) (r : Result) : Prop :=
  ∃ t out, r = .next t ∧ t.responses = s.responses ++ [⟨st, out⟩] ∧ (st ≠ .ok → out = [])

/-- A command that raises the expected status answers with it. -/
theorem answersWith_of_raise {s : State} {st st' : Status} {r : Result} (h : r = .next (s.respond st' [])) (hst : st = st') :
    AnswersWith s st r :=
  ⟨_, [], h, by rw [hst, State.respond_responses], fun _ => rfl⟩

/-- A command that completes where OK is expected answers with it, whatever else it wrote. -/
theorem answersWith_of_complete {s t : State} {st : Status} {out : List Byte} {r : Result} (h : r = .next (t.respond .ok out))
    (ht : t.responses = s.responses) (hst : st = .ok) : AnswersWith s st r :=
  ⟨_, out, h, by rw [hst, State.respond_responses, ht], fun hne => absurd hst hne⟩

/-- The ids without a row are exactly the unassigned ones (30_encoding R89). -/
theorem row_eq_none_iff_unassigned {s : State} (ht : tableWf s) (v : VariantId) : s.row v = none ↔ v ∈ unassignedIds := by
  have hrows (x : XofBlockSize) : ∀ v, tableRow (variantTable x) v = none → v ∈ unassignedIds := by cases x <;> decide
  obtain ⟨x, hx⟩ := exists_variantTable ht
  refine ⟨fun h => hrows x v ?_, row_eq_none_of_unassigned ht⟩
  rwa [State.row, hx] at h

/-- Every command answers with the first status that applies: the cases of its meaning stand in the order of R212. -/
theorem exec_answersWith_expectedStatus {s : State} (ht : tableWf s) (i : Instr) : AnswersWith s (expectedStatus i s) (exec i s) := by
  cases i with
  | init c v =>
    rcases execInit_cases c v s with ⟨hnone, h⟩ | ⟨C, hC, hrow, h⟩ | ⟨C, row, hC, hrow, h⟩
    · exact answersWith_of_raise h (expectedStatus_of_badContext (List.mem_singleton.mpr rfl) hnone)
    · have hid : v ∈ unassignedIds := (row_eq_none_iff_unassigned ht v).mp hrow
      exact answersWith_of_raise h ((expectedStatus_init hC v).trans (if_pos hid))
    · have hid : v ∉ unassignedIds := fun hv => by simp [row_eq_none_of_unassigned ht hv] at hrow
      exact answersWith_of_complete h rfl ((expectedStatus_init hC v).trans (if_neg hid))
  | update c len payload =>
    rcases execUpdate_cases c len payload s with ⟨hnone, h⟩ | ⟨C, hC, hm, h⟩ | ⟨C, hC, hm, h⟩ | ⟨C, hC, hm, h⟩
    · exact answersWith_of_raise h (expectedStatus_of_badContext (List.mem_singleton.mpr rfl) hnone)
    · exact answersWith_of_raise h (by simp [expectedStatus_update hC, hm])
    · exact answersWith_of_raise h (by simp [expectedStatus_update hC, hm])
    · exact answersWith_of_complete h rfl (by simp [expectedStatus_update hC, hm])
  | digest c hex =>
    rcases execDigest_cases c hex s with ⟨hnone, h⟩ | ⟨C, hC, hm, h⟩ | ⟨C, hC, hm, hD, h⟩ | ⟨C, hC, hm, hD, h⟩
    · exact answersWith_of_raise h (expectedStatus_of_badContext (List.mem_singleton.mpr rfl) hnone)
    · exact answersWith_of_raise h (by rw [expectedStatus_digest hC, if_pos hm])
    · exact answersWith_of_raise h (by rw [expectedStatus_digest hC, if_neg hm, if_pos hD])
    · exact answersWith_of_complete h rfl (by rw [expectedStatus_digest hC, if_neg hm, if_neg hD])
  | squeeze c hex n =>
    rcases execSqueeze_cases c hex n s with ⟨hnone, h⟩ | ⟨C, hC, hm, h⟩ | ⟨C, hC, hm, hD, h⟩ | ⟨C, hC, hm, hD, h⟩
    · exact answersWith_of_raise h (expectedStatus_of_badContext (List.mem_singleton.mpr rfl) hnone)
    · exact answersWith_of_raise h (by rw [expectedStatus_squeeze hC, if_pos hm])
    · exact answersWith_of_raise h (by rw [expectedStatus_squeeze hC, if_neg hm, if_pos hD])
    · exact answersWith_of_complete h rfl (by rw [expectedStatus_squeeze hC, if_neg hm, if_neg (not_not.mpr hD)])
  | copy dst src =>
    rcases execCopy_cases dst src s with
      ⟨hdst | hsrc, h⟩ | ⟨C, S, hC, hS, hm, h⟩ | ⟨C, S, hC, hS, hm, -, h⟩ | ⟨C, S, hC, hS, hm, -, h⟩
    · exact answersWith_of_raise h (expectedStatus_of_badContext (List.mem_cons_self ..) hdst)
    · exact answersWith_of_raise h (expectedStatus_of_badContext (List.mem_cons_of_mem _ (List.mem_singleton.mpr rfl)) hsrc)
    · exact answersWith_of_raise h ((expectedStatus_copy hC hS).trans (if_pos hm))
    · exact answersWith_of_complete h rfl ((expectedStatus_copy hC hS).trans (if_neg hm))
    · exact answersWith_of_complete h rfl ((expectedStatus_copy hC hS).trans (if_neg hm))
  | free c =>
    rcases execFree_cases c s with ⟨hnone, h⟩ | ⟨C, hC, -, h⟩ | ⟨C, hC, -, h⟩
    · exact answersWith_of_raise h (expectedStatus_of_badContext (List.mem_singleton.mpr rfl) hnone)
    · exact answersWith_of_complete h rfl (expectedStatus_free hC)
    · exact answersWith_of_complete h rfl (expectedStatus_free hC)
  | query c =>
    rcases execQuery_cases c s with ⟨hnone, h⟩ | ⟨C, hC, h⟩
    · exact answersWith_of_raise h (expectedStatus_of_badContext (List.mem_singleton.mpr rfl) hnone)
    · exact answersWith_of_complete h rfl (expectedStatus_query hC)

/-- A whole frame is ILLEGAL exactly where its word stands for no command (30_encoding R85). -/
theorem decodeFrame_eq_illegal_iff (w operand : Word) (payload rest : List Byte) :
    decodeFrame w operand payload rest = .illegal rest ↔ instrOf w operand payload = none := by
  cases h : instrOf w operand payload <;> simp [decodeFrame, h]

/-- Settles O19: the cases of each meaning in the order of R212, the answer of the step to an ILLEGAL frame, and the words that are
ILLEGAL (30_encoding R84). -/
theorem statusFollowsThePriority : Obligations.StatusFollowsThePriority := by
  unfold Obligations.StatusFollowsThePriority
  refine ⟨fun i s ht => exec_answersWith_expectedStatus ht i, fun s rest hill => ?_, fun w operand payload rest => ?_⟩
  · rcases step_cases s with ⟨i, rest', hcmd, -⟩ | ⟨rest', -, h⟩ | ⟨hinc, -⟩
    · simp [hill] at hcmd
    · exact ⟨_, h, rfl⟩
    · simp [hill] at hinc
  · exact (decodeFrame_eq_illegal_iff w operand payload rest).trans (illegalWordsAreThoseOfFieldLegality.1 w operand payload)

/-! ## Errors -/

/-- Two responses that end the same list of responses have the same status. -/
theorem status_eq_of_responses_eq {l : List Response} {st st' : Status} {out out' : List Byte}
    (h : l ++ [⟨st', out'⟩] = l ++ [⟨st, out⟩]) : st' = st :=
  congrArg Response.status (List.singleton_inj.mp (List.append_cancel_left h))

/-- A command that answers with a status other than OK only answers (R211). -/
theorem exec_eq_respond_of_error {i : Instr} {s t : State} {st : Status} {out : List Byte} (h : exec i s = .next t)
    (hresp : t.responses = s.responses ++ [⟨st, out⟩]) (hst : st ≠ .ok) : t = s.respond st [] := by
  rcases exec_cases i s with ⟨st', out', hexec, hempty⟩ | ⟨c, C, D, out', n, -, -, hexec⟩
  · obtain rfl : s.respond st' out' = t := by simpa [hexec] using h
    obtain rfl := status_eq_of_responses_eq hresp
    rw [hempty hst]
  · obtain rfl : State.respond { s with ctx := s.ctx.set c.toNat D, draws := n } .ok out' = t := by simpa [hexec] using h
    exact absurd (status_eq_of_responses_eq hresp).symm hst

/-- Settles O20: a command that fails only answers; a step runs it with its frame consumed, answers ILLEGAL with the frame consumed, or
waits without an answer. -/
theorem errorsHaveNoEffect : Obligations.ErrorsHaveNoEffect := by
  unfold Obligations.ErrorsHaveNoEffect
  refine ⟨fun i s t st out => exec_eq_respond_of_error, fun s t st out h hresp hst => ?_⟩
  rcases step_cases s with ⟨i, rest, hdec, hstep⟩ | ⟨rest, hdec, hstep⟩ | ⟨-, hstep⟩
  · exact ⟨rest, by rw [hdec, restAfter], exec_eq_respond_of_error (s := s.consumed rest) (hstep.symm.trans h) hresp hst⟩
  · obtain rfl : (s.consumed rest).respond .illegal [] = t := by simpa [hstep] using h
    obtain rfl := status_eq_of_responses_eq hresp
    exact ⟨rest, by rw [hdec, restAfter], rfl⟩
  · obtain rfl : s = t := by simpa [hstep] using h
    simp at hresp

end Sys2Proof.Proofs
end

