-- ==== Sys2Proof/Proofs/Hazards.lean ====
section
/-! PROOF. Reset and hazards (spec/70_reset_and_hazards.md R242, R246): nothing writes the variant table, and a context that was squeezed
stays SQUEEZING, refusing every UPDATE, until it is initialised, copied onto or freed. -/

namespace Sys2Proof.Proofs

open Sys2Proof.Machine Sys2Proof.Safety

/-! ## Squeeze is one-way -/

/-- A SQUEEZE leaves its context SQUEEZING, or fails and only answers (43_engine R165). -/
theorem execSqueeze_squeezing_or_error {c : CtxIndex} {hex : Bool} {n : Word} {s t : State} (h : execSqueeze c hex n s = .next t) :
    (∃ D, t.context c = some D ∧ D.mode = .squeezing) ∨ ∃ st, st ≠ .ok ∧ t = s.respond st [] := by
  rcases execSqueeze_cases c hex n s with ⟨-, hexec⟩ | ⟨C, -, -, hexec⟩ | ⟨C, -, -, -, hexec⟩ | ⟨C, hC, hm, -, hexec⟩
  all_goals obtain rfl := Host.Outcome.next.inj (h.symm.trans hexec)
  · exact .inr ⟨.badContext, by decide, rfl⟩
  · exact .inr ⟨.unconfigured, by decide, rfl⟩
  · exact .inr ⟨.stateError, by decide, rfl⟩
  · exact .inl ⟨_, State.setContext_context_self hC, Context.readyToSqueeze_mode hm⟩

/-- Besides INIT, COPY and FREE only UPDATE and SQUEEZE write a context (10_state R41). -/
theorem update_or_squeeze_of_written {i : Instr} {c : CtxIndex} (hw : writtenContext i = some c) (hinit : ∀ v, i ≠ .init c v)
    (hcopy : ∀ src, i ≠ .copy c src) (hfree : i ≠ .free c) :
    (∃ len payload, i = .update c len payload) ∨ ∃ hex n, i = .squeeze c hex n := by
  cases i with
  | init d v => exact absurd (congrArg (Instr.init · v) (Option.some.inj hw)) (hinit v)
  | update d len payload => exact .inl ⟨len, payload, congrArg (Instr.update · len payload) (Option.some.inj hw)⟩
  | squeeze d hex n => exact .inr ⟨hex, n, congrArg (Instr.squeeze · hex n) (Option.some.inj hw)⟩
  | copy dst src => exact absurd (congrArg (Instr.copy · src) (Option.some.inj hw)) (hcopy src)
  | free d => exact absurd (congrArg Instr.free (Option.some.inj hw)) hfree
  | digest d hex | query d => cases hw

/-- No command but INIT, COPY and FREE onto a context takes it out of SQUEEZING: UPDATE fails and SQUEEZE goes on (10_state R33). -/
theorem exec_keeps_squeezing {i : Instr} {c : CtxIndex} {s t : State} {C : Context} (hC : s.context c = some C)
    (hm : C.mode = .squeezing) (hinit : ∀ v, i ≠ .init c v) (hcopy : ∀ src, i ≠ .copy c src) (hfree : i ≠ .free c)
    (h : exec i s = .next t) : ∃ D, t.context c = some D ∧ D.mode = .squeezing := by
  by_cases hw : writtenContext i = some c
  · rcases update_or_squeeze_of_written hw hinit hcopy hfree with ⟨len, payload, rfl⟩ | ⟨hex, n, rfl⟩
    · obtain rfl := Host.Outcome.next.inj (h.symm.trans (execUpdate_of_squeezing hC hm len payload))
      exact ⟨C, hC, hm⟩
    · rcases execSqueeze_squeezing_or_error h with hsqueezing | ⟨st, -, rfl⟩
      · exact hsqueezing
      · exact ⟨C, hC, hm⟩
  · exact ⟨C, (exec_context_of_not_written h hw).trans hC, hm⟩

/-- Settles O34: a SQUEEZE answered OK did not fail, so it left its context SQUEEZING; every command then keeps it so, and UPDATE
raises STATE_ERROR. -/
theorem squeezeIsOneWay : Obligations.SqueezeIsOneWay := by
  unfold Obligations.SqueezeIsOneWay
  refine ⟨fun c hex n s t out h hresp => ?_, fun i c s t C => exec_keeps_squeezing,
    fun c len p s C hC hm => execUpdate_of_squeezing hC hm len p⟩
  rcases execSqueeze_squeezing_or_error h with hsqueezing | ⟨st, hst, rfl⟩
  · exact hsqueezing
  · exact absurd (status_eq_of_responses_eq hresp) hst

/-! ## The variant table -/

/-- No command changes the table (R242). -/
theorem exec_table {i : Instr} {s t : State} (h : exec i s = .next t) : t.table = s.table := by
  rcases exec_cases i s with ⟨st, out, hexec, -⟩ | ⟨c, C, D, out, n, -, -, hexec⟩
  all_goals
    obtain rfl := Host.Outcome.next.inj (h.symm.trans hexec)
    rfl

/-- No step changes the table, whatever the frame (R242). -/
theorem step_table {s t : State} (h : step s = .next t) : t.table = s.table := by
  rcases step_cases s with ⟨i, rest, -, hstep⟩ | ⟨rest, -, hstep⟩ | ⟨-, hstep⟩
  · exact exec_table (s := s.consumed rest) (hstep.symm.trans h)
  · obtain rfl := Host.Outcome.next.inj (h.symm.trans hstep)
    rfl
  · obtain rfl := Host.Outcome.next.inj (h.symm.trans hstep)
    rfl

/-- Settles O27: the table reset gives, kept by every step and by a reset of the running machine. -/
theorem tableIsNeverWritten : Obligations.TableIsNeverWritten := by
  unfold Obligations.TableIsNeverWritten
  exact ⟨fun _ _ => rfl, fun _ _ => step_table, State.hardReset_table⟩

end Sys2Proof.Proofs
end

