-- ==== Sys2Proof/Proofs/Codec.lean ====
section
/-! PROOF. Encoder and decoder (spec/30_encoding.md sections 1, 2 and 4): the frame of a command decodes to it, only that frame does, and a
frame is incomplete exactly while its bytes are missing. -/

namespace Sys2Proof.Proofs

open Sys2Proof.Machine Sys2Proof.Safety
open Sys2Proof.Laws.FrameLength (operandWord)

/-! ## From the command to its frame -/

/-- The payload of a command's frame; empty where it has none. -/
def framePayload : Instr → List Byte
  | .update _ _ payload => payload
  | .init _ _ | .digest _ _ | .squeeze _ _ _ | .copy _ _ | .free _ | .query _ => []

@[simp] theorem rsvField_commandWord (o c a : BitVec 4) (h : Bool) : rsvField (commandWord o c a h) = 0 :=
  (commandWord_fields o c a h).1

@[simp] theorem hexField_commandWord (o c a : BitVec 4) (h : Bool) : hexField (commandWord o c a h) = h :=
  (commandWord_fields o c a h).2.1

@[simp] theorem auxField_commandWord (o c a : BitVec 4) (h : Bool) : auxField (commandWord o c a h) = a :=
  (commandWord_fields o c a h).2.2.1

@[simp] theorem ctxField_commandWord (o c a : BitVec 4) (h : Bool) : ctxField (commandWord o c a h) = c :=
  (commandWord_fields o c a h).2.2.2.1

@[simp] theorem opcField_commandWord (o c a : BitVec 4) (h : Bool) : opcField (commandWord o c a h) = o :=
  (commandWord_fields o c a h).2.2.2.2

/-- The command word of a command stands for that command (R85, R86). -/
theorem instrOf_encodeWord (i : Instr) : instrOf (encodeWord i) (operandWord i) (framePayload i) = some i := by
  cases i <;> simp [encodeWord, operandWord, framePayload, instrOf_eq]

/-- The decoder takes the frame of a well-formed command apart into its word, operand word and payload (R83, R95). -/
theorem decode_encode_append {i : Instr} (hw : i.wellFormed = true) (rest : List Byte) :
    decode (encode i ++ rest) = decodeFrame (encodeWord i) (operandWord i) (framePayload i) rest := by
  have word {j : Instr} (h2 : opcField (encodeWord j) ≠ 2) (h4 : opcField (encodeWord j) ≠ 4) (hops : encodeOperands j = []) :
      decode (encode j ++ rest) = decodeFrame (encodeWord j) 0 [] rest := by
    rw [encode, hops, List.append_nil, decode_of_word h2 h4]
  cases i with
  | update c len payload =>
    have hlen : payload.length = len.toNat := by simpa [Instr.wellFormed] using hw
    have hframe := decode_of_update_opc (opcField_commandWord 2 c 0 false) hlen rest
    rwa [List.append_assoc (wordBytes _)] at hframe
  | squeeze c hex n => exact decode_of_squeeze_opc (opcField_commandWord 4 c 0 hex) n rest
  | init _ _ | digest _ _ | copy _ _ | free _ | query _ => exact word (by simp [encodeWord]) (by simp [encodeWord]) rfl

/-- A whole frame whose word stands for a command decodes to that command. -/
theorem decodeFrame_of_instrOf {w operand : Word} {payload : List Byte} {i : Instr} (h : instrOf w operand payload = some i)
    (rest : List Byte) : decodeFrame w operand payload rest = .command i rest := by
  simp only [decodeFrame, h]

/-- Settles O2: the decoder takes the frame apart, and the word stands for the command. -/
theorem decodeInvertsEncode : Obligations.DecodeInvertsEncode := by
  unfold Obligations.DecodeInvertsEncode
  intro i rest hw
  rw [decode_encode_append hw, decodeFrame_of_instrOf (instrOf_encodeWord i)]

/-! ## From the frame to the command -/

/-- A word that stands for a command is that command's word, with its operand word and payload where its OPC has them. -/
theorem encode_of_instrOf {w operand : Word} {payload : List Byte} {i : Instr} (h : instrOf w operand payload = some i) :
    encodeWord i = w ∧ (i.wellFormed = true ↔ (opcField w = 2 → payload.length = operand.toNat)) ∧
      encodeOperands i =
        if opcField w = 2 then wordBytes operand ++ payload else if opcField w = 4 then wordBytes operand else [] := by
  rw [instrOf_eq] at h
  split at h
  · cases h
  next hr =>
    have hword := commandWord_of_fields (not_not.mp hr)
    split_ifs at h with h1 h2 h3 h4 h5 h6 h7
    all_goals
      obtain rfl := Option.some.inj h
      simp_all [encodeWord, encodeOperands, Instr.wellFormed]

/-- A whole frame that decodes to a command has a word that stands for it, and leaves the bytes after the frame. -/
theorem instrOf_of_decodeFrame {w operand : Word} {payload rest rest' : List Byte} {i : Instr}
    (h : decodeFrame w operand payload rest = .command i rest') : instrOf w operand payload = some i ∧ rest = rest' := by
  unfold decodeFrame at h
  split at h
  next j hj =>
    obtain ⟨rfl, rfl⟩ := Decoded.command.inj h
    exact ⟨hj, rfl⟩
  next => cases h

/-- Bytes that decode to a command are a word that stands for it, what the word's OPC asks for after it, and the rest (R83, R95). -/
theorem decode_eq_command {bs rest : List Byte} {i : Instr} (h : decode bs = .command i rest) :
    ∃ w operand payload, instrOf w operand payload = some i ∧ (opcField w = 2 → payload.length = operand.toNat) ∧
      bs = wordBytes w ++
        (if opcField w = 2 then wordBytes operand ++ payload else if opcField w = 4 then wordBytes operand else []) ++ rest := by
  unfold decode at h
  split at h
  next => cases h
  next w tail hbs =>
    obtain rfl := takeWord_eq_some.mp hbs
    split at h
    next h2 =>
      split at h
      next => cases h
      next len tail' htail =>
        obtain rfl := takeWord_eq_some.mp htail
        split at h
        next => cases h
        next hlen =>
          obtain ⟨hi, rfl⟩ := instrOf_of_decodeFrame h
          have htake : (tail'.take len.toNat).length = len.toNat := List.length_take_of_le (Nat.not_lt.mp hlen)
          exact ⟨w, len, _, hi, fun _ => htake, by rw [if_pos h2]; simp only [List.append_assoc, List.take_append_drop]⟩
    next h2 =>
      split at h
      next h4 =>
        split at h
        next => cases h
        next n tail' htail =>
          obtain rfl := takeWord_eq_some.mp htail
          obtain ⟨hi, rfl⟩ := instrOf_of_decodeFrame h
          exact ⟨w, n, _, hi, fun h => absurd h h2, by rw [if_neg h2, if_pos h4, List.append_assoc]⟩
      next h4 =>
        obtain ⟨hi, rfl⟩ := instrOf_of_decodeFrame h
        exact ⟨w, _, _, hi, fun h => absurd h h2, by rw [if_neg h2, if_neg h4, List.append_nil]⟩

/-- Settles O3: the word read stands for the command, so it is the command's word, and what was read after it the command's operands. -/
theorem encodeInvertsDecode : Obligations.EncodeInvertsDecode := by
  unfold Obligations.EncodeInvertsDecode
  intro bs rest i h
  obtain ⟨w, operand, payload, hi, hlen, rfl⟩ := decode_eq_command h
  obtain ⟨hword, hwf, hops⟩ := encode_of_instrOf hi
  exact ⟨hwf.mpr hlen, by rw [encode, hword, hops]⟩

/-! ## Incomplete frames -/

/-- A frame taken whole is not incomplete, whether its word is ILLEGAL or not. -/
theorem decodeFrame_ne_incomplete (w operand : Word) (payload rest : List Byte) :
    decodeFrame w operand payload rest ≠ .incomplete := fun h => by
  simpa [h, restAfter] using restAfter_decodeFrame w operand payload rest

/-- Where its OPC asks for an operand word, a frame is incomplete without one (R95). -/
theorem decode_of_no_operand {w : Word} (h : opcField w = 2 ∨ opcField w = 4) {tail : List Byte} (hlen : tail.length < 4) :
    decode (wordBytes w ++ tail) = .incomplete := by
  have hnone : takeWord tail = none := takeWord_eq_none.mpr hlen
  rcases h with h | h <;> simp [decode, h, hnone]

/-- An UPDATE frame with its operand word is incomplete exactly while it has fewer than LEN bytes of payload (R95). -/
theorem decode_of_update_opc_eq_incomplete {w : Word} (h : opcField w = 2) (len : Word) (payload : List Byte) :
    decode (wordBytes w ++ wordBytes len ++ payload) = .incomplete ↔ payload.length < len.toNat := by
  simp only [List.append_assoc, decode, takeWord_wordBytes, if_pos h]
  split
  next hlt => exact iff_of_true rfl hlt
  next hge => exact iff_of_false (decodeFrame_ne_incomplete _ _ _ _) hge

/-- Settles O7: by OPC; a SQUEEZE frame whose next four bytes are there is whole. -/
theorem incompleteExactlyWhenBytesAreMissing : Obligations.IncompleteExactlyWhenBytesAreMissing := by
  unfold Obligations.IncompleteExactlyWhenBytesAreMissing
  refine ⟨fun bs hlen => ?_, fun w tail => ⟨fun h2 h4 => ?_, fun h => ⟨fun hinc => ?_, decode_of_no_operand (.inr h)⟩,
    fun h => decode_of_no_operand (.inl h), fun h len payload => decode_of_update_opc_eq_incomplete h len payload⟩⟩
  · simp only [decode, takeWord_eq_none.mpr hlen]
  · rw [decode_of_word h2 h4]
    exact decodeFrame_ne_incomplete _ _ _ _
  · by_contra hlen
    obtain ⟨⟨n, rest⟩, htail⟩ : ∃ p, takeWord tail = some p :=
      Option.ne_none_iff_exists'.mp fun hnone => hlen (takeWord_eq_none.mp hnone)
    obtain rfl := takeWord_eq_some.mp htail
    rw [← List.append_assoc, decode_of_squeeze_opc h] at hinc
    exact decodeFrame_ne_incomplete _ _ _ _ hinc

/-! ## The tables of the spec -/

/-- Settles O1: the twelve rows of the table, each run through the decoder and the encoder. -/
theorem workedEncodingsAgree : Obligations.WorkedEncodingsAgree := by
  unfold Obligations.WorkedEncodingsAgree
  decide

/-- A word has the OPC of every row it fits. -/
theorem opcField_of_fits {w : Word} {r : OpcodeRow} (hr : r ∈ opcodeTable) (h : r.fits w = true) : opcField w = opcField r.pattern := by
  have hmask : ∀ r ∈ opcodeTable, opcField r.mask = BitVec.allOnes 4 := by decide
  have hand : opcField (w &&& r.mask) = opcField w := by
    rw [opcField, BitVec.extractLsb'_and, ← opcField, ← opcField, hmask r hr, BitVec.and_allOnes]
  rw [← hand, beq_iff_eq.mp h]

/-- Settles O5: the rows a word fits have its OPC, and no two rows have the same. -/
theorem opcodeRowsExcludeEachOther : Obligations.OpcodeRowsExcludeEachOther := by
  unfold Obligations.OpcodeRowsExcludeEachOther
  have hdistinct : ∀ r ∈ opcodeTable, ∀ r' ∈ opcodeTable, opcField r.pattern = opcField r'.pattern → r = r' := by decide
  intro w r hr r' hr' h h'
  exact hdistinct r hr r' hr' ((opcField_of_fits hr h).symm.trans (opcField_of_fits hr' h'))

end Sys2Proof.Proofs
end

