-- ==== Sys2Proof/Proofs/StepRule.lean ====
section
/-! PROOF. The step (spec/43_engine_commands.md section 1): it runs the decoded command, answers an ILLEGAL frame, and waits without a whole
frame. -/

namespace Sys2Proof.Proofs

open Sys2Proof.Machine Sys2Proof.Safety

/-- With a command at the head of the input the step runs it, its frame consumed (R160). -/
theorem step_of_command {s : State} {i : Instr} {rest : List Byte} (h : decode s.input = .command i rest) :
    step s = exec i (s.consumed rest) := by
  rcases step_cases s with ⟨i', rest', hdec, hstep⟩ | ⟨rest', hdec, -⟩ | ⟨hdec, -⟩
  · obtain ⟨rfl, rfl⟩ := Decoded.command.inj (h.symm.trans hdec)
    exact hstep
  · simp [h] at hdec
  · simp [h] at hdec

/-- With an ILLEGAL frame at the head of the input the step answers ILLEGAL, the frame consumed (R169). -/
theorem step_of_illegal {s : State} {rest : List Byte} (h : decode s.input = .illegal rest) :
    step s = .next ((s.consumed rest).respond .illegal []) := by
  rcases step_cases s with ⟨i', rest', hdec, -⟩ | ⟨rest', hdec, hstep⟩ | ⟨hdec, -⟩
  · simp [h] at hdec
  · obtain rfl := Decoded.illegal.inj (h.symm.trans hdec)
    exact hstep
  · simp [h] at hdec

/-- Without a whole frame the step changes nothing (70_reset R247 H2). -/
theorem step_of_incomplete {s : State} (h : decode s.input = .incomplete) : step s = .next s := by
  rcases step_cases s with ⟨i', rest', hdec, -⟩ | ⟨rest', hdec, -⟩ | ⟨-, hstep⟩
  · simp [h] at hdec
  · simp [h] at hdec
  · exact hstep

/-- Settles O8: the step's first case. -/
theorem stepRunsTheDecodedCommand : Obligations.StepRunsTheDecodedCommand := by
  unfold Obligations.StepRunsTheDecodedCommand
  exact fun s i rest _ h => step_of_command h

/-- Settles O10: the step's last case, and the first once the missing bytes have come. -/
theorem incompleteFrameWaits : Obligations.IncompleteFrameWaits := by
  unfold Obligations.IncompleteFrameWaits
  exact fun s h => ⟨step_of_incomplete h, fun missing rest i hdec => step_of_command (s := s.send missing) hdec⟩

/-- Whether a word is ILLEGAL depends on the word alone (30_encoding R84). -/
theorem instrOf_eq_none_of_operands {w operand operand' : Word} {payload payload' : List Byte} (h : instrOf w operand payload = none) :
    instrOf w operand' payload' = none :=
  (illegalWordsAreThoseOfFieldLegality.1 w operand' payload').mpr ((illegalWordsAreThoseOfFieldLegality.1 w operand payload).mp h)

/-- A whole frame with an ILLEGAL word at the head of the input is answered ILLEGAL and consumed. -/
theorem step_of_decodeFrame_illegal {s : State} {w operand : Word} {payload rest : List Byte} (h : instrOf w 0 [] = none)
    (hdec : decode s.input = decodeFrame w operand payload rest) : step s = .next ((s.consumed rest).respond .illegal []) :=
  step_of_illegal (hdec.trans ((decodeFrame_eq_illegal_iff w operand payload rest).mpr (instrOf_eq_none_of_operands h)))

/-- Settles O9: the three shapes of a frame, each taken whole before its word is found ILLEGAL. -/
theorem illegalFrameIsAnswered : Obligations.IllegalFrameIsAnswered := by
  unfold Obligations.IllegalFrameIsAnswered
  refine fun s w rest h => ⟨fun h2 h4 hin => ?_, fun n h4 hin => ?_, fun len payload h2 hlen hin => ?_⟩
  · exact step_of_decodeFrame_illegal h (by rw [hin, decode_of_word h2 h4])
  · exact step_of_decodeFrame_illegal h (by rw [hin, decode_of_squeeze_opc h4])
  · exact step_of_decodeFrame_illegal h (by rw [hin, decode_of_update_opc h2 hlen])

end Sys2Proof.Proofs
end

