-- ==== Sys2Proof/Proofs/Invariant.lean ====
section
/-! PROOF. The invariant of the machine (spec/10_state.md section 2): reset gives it, and every step keeps it, because what a command writes
into a context is well-formed by the table's rows and the closed forms of the operations on one context. And reset itself
(spec/70_reset_and_hazards.md section 1). -/

namespace Sys2Proof.Proofs

open Sys2Proof.Machine Sys2Proof.Safety

/-! ## Well-formed contexts -/

/-- A configured context that is well-formed has the configuration of a row of the table. -/
theorem hasRow_of_contextWf {table : List VariantRow} {C : Context} (h : contextWf table C = true) (hm : C.mode ≠ .unconfigured) :
    hasRow table C = true := by
  cases hmode : C.mode with
  | unconfigured => exact absurd hmode hm
  | absorbing =>
    simp only [contextWf, hmode, Bool.and_eq_true] at h
    exact h.1
  | squeezing =>
    simp only [contextWf, hmode, Bool.and_eq_true] at h
    obtain ⟨⟨⟨hrow, -⟩, -⟩, -⟩ := h
    exact hrow

/-- Contexts of one configuration have a row of the table or not together. -/
theorem hasRow_congr {table : List VariantRow} {C D : Context} (h : configRow D = configRow C) : hasRow table D = hasRow table C := by
  show (tableRow table (configRow D).id == some (configRow D)) = (tableRow table (configRow C).id == some (configRow C))
  rw [h]

/-- A well-formed ABSORBING context has less than a block buffered. -/
theorem buflen_lt_of_absorbing {table : List VariantRow} {C : Context} (h : contextWf table C = true) (hm : C.mode = .absorbing) :
    C.buflen.toNat < C.rate.toNat := by
  simp only [contextWf, hm, Bool.and_eq_true, decide_eq_true_eq] at h
  exact h.2

/-- A well-formed SQUEEZING context has nothing buffered. -/
theorem buflen_eq_zero_of_squeezing {table : List VariantRow} {C : Context} (h : contextWf table C = true) (hm : C.mode = .squeezing) :
    C.buflen = 0 := by
  simp only [contextWf, hm, Bool.and_eq_true, beq_iff_eq] at h
  obtain ⟨⟨-, hbuflen⟩, -⟩ := h
  exact hbuflen

/-- The buffer of a configured context of a well-formed state never overflows. -/
theorem buflen_le_of_configured {s : State} (hs : StateWf s) {c : CtxIndex} {C : Context} (hC : s.context c = some C)
    (hm : C.mode ≠ .unconfigured) : C.buflen.toNat ≤ Config.bufBytes := by
  obtain ⟨-, hR, -⟩ := bounds_of_configured hs hC hm
  have hwf : contextWf s.table C = true := hs.2.2 C (State.context_mem hC)
  have hmax : Config.rateMax = 168 := rfl
  cases hmode : C.mode with
  | unconfigured => exact absurd hmode hm
  | absorbing =>
    have hlt := buflen_lt_of_absorbing hwf hmode
    show C.buflen.toNat ≤ 167
    omega
  | squeezing => simp [buflen_eq_zero_of_squeezing hwf hmode]

/-- A context configured by a row of the table is well-formed (43_engine R162). -/
theorem contextWf_configure {s : State} (ht : tableWf s) {v : VariantId} {row : VariantRow} (hrow : tableRow s.table v = some row)
    (C : Context) (q : Byte) : contextWf s.table (C.configure row q) = true := by
  obtain ⟨hR1, -⟩ := rate_of_tableRow ht hrow
  have hhas : hasRow s.table (C.configure row q) = true := by
    show (tableRow s.table row.id == some row) = true
    rw [id_of_tableRow hrow, hrow, beq_self_eq_true]
  simpa [contextWf, hhas] using Nat.lt_of_lt_of_le Nat.zero_lt_one hR1

/-- UPDATE leaves an ABSORBING context well-formed: the remainder is less than a block (43_engine R163). -/
theorem contextWf_absorb {s : State} (hs : StateWf s) {c : CtxIndex} {C : Context} (hC : s.context c = some C)
    (hm : C.mode = .absorbing) (payload : List Byte) : contextWf s.table (C.absorb payload) = true := by
  have hne : C.mode ≠ .unconfigured := by simp [hm]
  obtain ⟨hR1, hR, -⟩ := bounds_of_configured hs hC hne
  have hrow : hasRow s.table (C.absorb payload) = true :=
    (hasRow_congr (C := C) rfl).trans (hasRow_of_contextWf (hs.2.2 C (State.context_mem hC)) hne)
  obtain ⟨-, -, hbuflen⟩ := Context.absorb_eq hR1 hR payload
  have hlt : (C.absorb payload).buflen.toNat < C.rate.toNat := hbuflen ▸ Nat.mod_lt _ hR1
  simp only [contextWf, Context.absorb_mode, hm, hrow, Context.absorb_rate, hlt, decide_true, Bool.and_true]

/-- SQUEEZE leaves a context of an XOF row well-formed: nothing is buffered, and the cursor stays within the block (43_engine R165,
41_sponge R136). -/
theorem contextWf_afterSqueeze {s : State} (hs : StateWf s) {c : CtxIndex} {C : Context} (hC : s.context c = some C)
    (hm : C.mode ≠ .unconfigured) (hD : C.digestSize = 0) (n : Nat) :
    contextWf s.table (C.readyToSqueeze.afterSqueeze n) = true := by
  obtain ⟨hR1, hR, hpos⟩ := bounds_of_configured hs hC hm
  have hwf : contextWf s.table C = true := hs.2.2 C (State.context_mem hC)
  have hrow : hasRow s.table (C.readyToSqueeze.afterSqueeze n) = true :=
    (hasRow_congr (configRow_readyToSqueeze_afterSqueeze C n)).trans (hasRow_of_contextWf hwf hm)
  have hbuflen : C.readyToSqueeze.buflen = 0 := by
    cases hmode : C.mode with
    | unconfigured => exact absurd hmode hm
    | absorbing => rw [readyToSqueeze_of_absorbing hmode, Context.startSqueezing_buflen]
    | squeezing => rw [readyToSqueeze_of_squeezing hmode, buflen_eq_zero_of_squeezing hwf hmode]
  have hcursor : (C.readyToSqueeze.afterSqueeze n).sqpos.toNat ≤ C.rate.toNat := by
    have hrate : C.readyToSqueeze.rate = C.rate := Context.readyToSqueeze_rate C
    rw [afterSqueeze_sqpos_toNat (hrate ▸ hR1) (hrate ▸ hR) (hrate ▸ readyToSqueeze_sqpos_le hm hpos), hrate]
    exact stream_cursor_le hR1 _
  simp [contextWf, Context.readyToSqueeze_mode hm, hrow, hD, hbuflen, hcursor, -Context.afterSqueeze_sqpos]

/-! ## The invariant -/

/-- Writing a well-formed context, drawing free values and answering keeps a state well-formed. -/
theorem stateWf_setContext {s t : State} (hs : StateWf s) {c : CtxIndex} {D : Context} (hD : contextWf s.table D = true)
    (hctx : t.ctx = (s.setContext c D).ctx) (htable : t.table = s.table) : StateWf t := by
  obtain ⟨hn, ht, hall⟩ := hs
  have hnctx : t.nctx = s.nctx := by rw [State.nctx, hctx, ← State.nctx, State.setContext_nctx]
  refine ⟨hnctx ▸ hn, by rwa [tableWf, htable], fun E hE => ?_⟩
  rw [htable]
  rcases State.mem_setContext (hctx ▸ hE) with rfl | hE
  · exact hD
  · exact hall E hE

/-- Every command keeps the well-formed states: each case of its meaning writes nothing, or one well-formed context. -/
theorem exec_stateWf {i : Instr} {s t : State} (hs : StateWf s) (h : exec i s = .next t) : StateWf t := by
  cases i with
  | init c v =>
    rcases execInit_cases c v s with ⟨-, hexec⟩ | ⟨_, -, -, hexec⟩ | ⟨C, row, -, hrow, hexec⟩
    all_goals obtain rfl := Host.Outcome.next.inj (h.symm.trans hexec)
    · exact hs
    · exact hs
    · exact stateWf_setContext hs (contextWf_configure hs.2.1 hrow C _) rfl rfl
  | update c len payload =>
    rcases execUpdate_cases c len payload s with ⟨-, hexec⟩ | ⟨_, -, -, hexec⟩ | ⟨_, -, -, hexec⟩ | ⟨C, hC, hm, hexec⟩
    all_goals obtain rfl := Host.Outcome.next.inj (h.symm.trans hexec)
    · exact hs
    · exact hs
    · exact hs
    · exact stateWf_setContext hs (contextWf_absorb hs hC hm _) rfl rfl
  | digest c hex =>
    rcases execDigest_cases c hex s with ⟨-, hexec⟩ | ⟨_, -, -, hexec⟩ | ⟨_, -, -, -, hexec⟩ | ⟨_, -, -, -, hexec⟩
    all_goals
      obtain rfl := Host.Outcome.next.inj (h.symm.trans hexec)
      exact hs
  | squeeze c hex n =>
    rcases execSqueeze_cases c hex n s with ⟨-, hexec⟩ | ⟨_, -, -, hexec⟩ | ⟨_, -, -, -, hexec⟩ | ⟨C, hC, hm, hD, hexec⟩
    all_goals obtain rfl := Host.Outcome.next.inj (h.symm.trans hexec)
    · exact hs
    · exact hs
    · exact hs
    · exact stateWf_setContext hs (contextWf_afterSqueeze hs hC hm hD _) rfl rfl
  | copy dst src =>
    rcases execCopy_cases dst src s with ⟨-, hexec⟩ | ⟨_, _, -, -, -, hexec⟩ | ⟨_, _, -, -, -, -, hexec⟩ | ⟨C, S, -, hS, -, -, hexec⟩
    all_goals obtain rfl := Host.Outcome.next.inj (h.symm.trans hexec)
    · exact hs
    · exact hs
    · exact hs
    · have hS' : contextWf s.table S = true := hs.2.2 S (State.context_mem hS)
      exact stateWf_setContext hs (D := C.copyFrom S) hS' rfl rfl
  | free c =>
    rcases execFree_cases c s with ⟨-, hexec⟩ | ⟨_, -, -, hexec⟩ | ⟨C, -, -, hexec⟩
    all_goals obtain rfl := Host.Outcome.next.inj (h.symm.trans hexec)
    · exact hs
    · exact hs
    · exact stateWf_setContext hs (D := Context.freed s.draws) rfl rfl rfl
  | query c =>
    rcases execQuery_cases c s with ⟨-, hexec⟩ | ⟨_, -, hexec⟩
    all_goals
      obtain rfl := Host.Outcome.next.inj (h.symm.trans hexec)
      exact hs

/-- Settles O28: a step runs a command, answers ILLEGAL or waits, and only a command writes a context. -/
theorem stepKeepsStateWellFormed : Obligations.StepKeepsStateWellFormed := by
  unfold Obligations.StepKeepsStateWellFormed
  intro s t hs h
  rcases step_cases s with ⟨i, rest, -, hstep⟩ | ⟨rest, -, hstep⟩ | ⟨-, hstep⟩
  · have hconsumed : StateWf (s.consumed rest) := hs
    exact exec_stateWf hconsumed (hstep.symm.trans h)
  · obtain rfl := Host.Outcome.next.inj (h.symm.trans hstep)
    exact hs
  · obtain rfl := Host.Outcome.next.inj (h.symm.trans hstep)
    exact hs

/-! ## Reset -/

/-- The state after reset is well-formed for every NCTX from 1 to 16 (70_reset R240). -/
theorem stateWf_resetWith {n : Nat} (h1 : 1 ≤ n) (h16 : n ≤ 16) (x : XofBlockSize) : StateWf (State.resetWith n x) := by
  have hn : (State.resetWith n x).nctx = n := List.length_replicate
  refine ⟨hn.symm ▸ ⟨h1, h16⟩, ?_, fun C hC => ?_⟩
  · cases x
    · exact .inl rfl
    · exact .inr rfl
  · obtain rfl := List.eq_of_mem_replicate hC
    rfl

/-- A reset of the running machine leaves every context a reset one, and the table and NCTX as they were (70_reset R240). -/
theorem stateWf_hardReset {s : State} (hs : StateWf s) : StateWf s.hardReset := by
  obtain ⟨hn, ht, -⟩ := hs
  refine ⟨by simpa [State.nctx] using hn, ht, fun C hC => ?_⟩
  obtain ⟨_, -, rfl⟩ := List.mem_map.mp hC
  rfl

/-- Settles O29: every context is a reset one, and no response has been given. -/
theorem resetIsWellFormed : Obligations.ResetIsWellFormed := by
  unfold Obligations.ResetIsWellFormed
  refine ⟨fun n x h1 h16 => ⟨stateWf_resetWith h1 h16 x, ?_⟩, stateWf_resetWith (by decide) (by decide) _,
    fun s => stateWf_hardReset⟩
  exact fun r hr => absurd hr List.not_mem_nil

/-- Settles O30: the contexts by their index, and the input left empty for the bytes sent next. -/
theorem resetUnconfiguresEveryContext : Obligations.ResetUnconfiguresEveryContext := by
  unfold Obligations.ResetUnconfiguresEveryContext
  refine ⟨fun n x k hk => ⟨.reset, ?_, rfl⟩, fun s k hk => ⟨.reset, ?_, rfl⟩, fun s => ⟨by simp [State.nctx], rfl⟩,
    fun s bs => by simp [State.fetch]⟩
  · simp [State.context, State.resetWith, hk]
  · obtain ⟨C, hC⟩ := exists_context hk
    have hget : s.ctx[k.toNat]? = some C := hC
    rw [State.context, State.hardReset_ctx, List.getElem?_map, hget, Option.map_some]

end Sys2Proof.Proofs
end

