-- ==== Sys2Proof/Proofs/Isolation.lean ====
section
/-! PROOF. What a command can depend on and what it can change (spec/10_state.md section 4, spec/20_memory.md section 4). A command reads the
contexts it names and the table, and never the command port; of a context it reads the fields that rules define in its mode. So two
states that agree there answer alike, which also orders commands on different contexts freely. -/

namespace Sys2Proof.Proofs

open Sys2Proof.Machine Sys2Proof.Safety

/-! ## The command port -/

/-- The state with other bytes waiting and other responses given. -/
def withPort (s : State) (input : List Byte) (responses : List Response) : State :=
  { s with input := input, responses := responses }

/-- A response the core may give (60_exceptions R210, R211). -/
def ResponseWf (r : Response) : Prop := r.status ≠ .typeError ∧ (r.status ≠ .ok → r.output = [])

/-- Whatever bytes wait and whatever responses were given, the command writes the same contexts and gives the same response. -/
def IgnoresPort (i : Instr) (s : State) : Prop :=
  ∃ ctx draws r, ResponseWf r ∧ ∀ input responses,
    exec i (withPort s input responses) = .next ⟨ctx, s.table, input, responses ++ [r], draws⟩

/-- A command that only answers, with one response, ignores the port. -/
theorem ignoresPort_of_respond {i : Instr} {s : State} {st : Status} {out : List Byte} (hst : st ≠ .typeError) (hout : st ≠ .ok → out = [])
    (h : ∀ input responses, exec i (withPort s input responses) = .next ((withPort s input responses).respond st out)) :
    IgnoresPort i s :=
  ⟨s.ctx, s.draws, ⟨st, out⟩, ⟨hst, hout⟩, h⟩

/-- An index below NCTX names one context, whatever the port holds. -/
theorem exists_context_withPort {s : State} {c : CtxIndex} (h : c.toNat < s.nctx) :
    ∃ C, ∀ input responses, (withPort s input responses).context c = some C :=
  (exists_context h).imp fun _ hC _ _ => hC

/-- UPDATE of an ABSORBING context absorbs the first LEN bytes of the payload (43_engine R163). -/
theorem execUpdate_of_absorbing_memRead {s : State} {c : CtxIndex} {C : Context} (hC : s.context c = some C) (hm : C.mode = .absorbing)
    (len : Word) (payload : List Byte) :
    execUpdate c len payload s = .next ((s.setContext c (C.absorb (memRead payload 0 len.toNat))).respond .ok []) := by
  simpa [hC, hm] using execUpdate_cases c len payload s

/-- No command looks at the port: each case of its meaning is found from the contexts it names and the table. -/
theorem exec_ignoresPort (i : Instr) (s : State) : IgnoresPort i s := by
  by_cases hbad : ∃ c ∈ namedContexts i, s.nctx ≤ c.toNat
  · obtain ⟨c, hc, hle⟩ := hbad
    exact ignoresPort_of_respond (by decide) (fun _ => rfl) fun _ _ => exec_of_badContext hc hle
  have named {c : CtxIndex} (hc : c ∈ namedContexts i) : c.toNat < s.nctx := by
    by_contra hlt
    exact hbad ⟨c, hc, Nat.not_lt.mp hlt⟩
  cases i with
  | init c v =>
    have hlt := named (List.mem_singleton.mpr rfl)
    obtain ⟨C, hC⟩ := exists_context_withPort hlt
    cases hrow : s.row v with
    | none => exact ignoresPort_of_respond (by decide) (fun _ => rfl) fun _ _ => execInit_of_unassigned hlt hrow
    | some row =>
      exact ⟨(s.setContext c (C.configure row (freeSqpos s.draws))).ctx, s.draws + 1, ⟨.ok, []⟩, ⟨by simp, fun _ => rfl⟩,
        fun _ _ => execInit_of_row (hC _ _) hrow⟩
  | update c len payload =>
    obtain ⟨C, hC⟩ := exists_context_withPort (named (List.mem_singleton.mpr rfl))
    cases hm : C.mode with
    | unconfigured => exact ignoresPort_of_respond (by decide) (fun _ => rfl) fun _ _ => execUpdate_of_unconfigured (hC _ _) hm len payload
    | squeezing => exact ignoresPort_of_respond (by decide) (fun _ => rfl) fun _ _ => execUpdate_of_squeezing (hC _ _) hm len payload
    | absorbing =>
      exact ⟨(s.setContext c (C.absorb (memRead payload 0 len.toNat))).ctx, s.draws, ⟨.ok, []⟩, ⟨by simp, fun _ => rfl⟩,
        fun _ _ => execUpdate_of_absorbing_memRead (hC _ _) hm len payload⟩
  | digest c hex =>
    obtain ⟨C, hC⟩ := exists_context_withPort (named (List.mem_singleton.mpr rfl))
    by_cases hm : C.mode = .unconfigured
    · exact ignoresPort_of_respond (by decide) (fun _ => rfl) fun _ _ => execDigest_of_unconfigured (hC _ _) hm hex
    by_cases hD : C.digestSize = 0
    · exact ignoresPort_of_respond (by decide) (fun _ => rfl) fun _ _ => execDigest_of_xof (hC _ _) hm hD hex
    · exact ignoresPort_of_respond (by decide) (fun h => absurd rfl h) fun _ _ => execDigest_of_fixed (hC _ _) hm hD hex
  | squeeze c hex n =>
    obtain ⟨C, hC⟩ := exists_context_withPort (named (List.mem_singleton.mpr rfl))
    have hexec (input : List Byte) (responses : List Response) :=
      execSqueeze_of_context (s := withPort s input responses) (hC _ _) hex n
    by_cases hm : C.mode = .unconfigured
    · exact ignoresPort_of_respond (by decide) (fun _ => rfl) fun _ _ => (hexec _ _).trans (if_pos hm)
    by_cases hD : C.digestSize ≠ 0
    · exact ignoresPort_of_respond (by decide) (fun _ => rfl) fun _ _ => (hexec _ _).trans ((if_neg hm).trans (if_pos hD))
    · exact ⟨(s.setContext c (C.readyToSqueeze.afterSqueeze n.toNat)).ctx, s.draws, ⟨.ok, _⟩, ⟨by simp, fun h => absurd rfl h⟩,
        fun _ _ => (hexec _ _).trans ((if_neg hm).trans (if_neg hD))⟩
  | copy dst src =>
    obtain ⟨C, hC⟩ := exists_context_withPort (named (List.mem_cons_self ..))
    obtain ⟨S, hS⟩ := exists_context_withPort (named (List.mem_cons_of_mem _ (List.mem_singleton.mpr rfl)))
    by_cases hm : S.mode = .unconfigured
    · exact ignoresPort_of_respond (by decide) (fun _ => rfl) fun _ _ => execCopy_of_unconfigured (hC _ _) (hS _ _) hm
    by_cases he : dst = src
    · subst he
      exact ignoresPort_of_respond (by decide) (fun _ => rfl) fun _ _ => execCopy_self (hS _ _) hm
    · exact ⟨(s.setContext dst (C.copyFrom S)).ctx, s.draws, ⟨.ok, []⟩, ⟨by simp, fun _ => rfl⟩,
        fun _ _ => execCopy_of_configured he (hC _ _) (hS _ _) hm⟩
  | free c =>
    obtain ⟨C, hC⟩ := exists_context_withPort (named (List.mem_singleton.mpr rfl))
    by_cases hm : C.mode = .unconfigured
    · exact ignoresPort_of_respond (by decide) (fun _ => rfl) fun _ _ => execFree_of_unconfigured (hC _ _) hm
    · exact ⟨(s.setContext c (Context.freed s.draws)).ctx, s.draws + 1, ⟨.ok, []⟩, ⟨by simp, fun _ => rfl⟩,
        fun _ _ => execFree_of_configured (hC _ _) hm⟩
  | query c =>
    obtain ⟨C, hC⟩ := exists_context_withPort (named (List.mem_singleton.mpr rfl))
    exact ignoresPort_of_respond (by decide) (fun h => absurd rfl h) fun _ _ => execQuery_of_info (hC _ _) rfl

/-- Settles O32: a command ignores the port, its own included. -/
theorem earlierResponsesDoNotMatter : Obligations.EarlierResponsesDoNotMatter := by
  unfold Obligations.EarlierResponsesDoNotMatter
  intro i s input responses
  obtain ⟨ctx, draws, r, -, h⟩ := exec_ignoresPort i s
  exact ⟨_, r, h s.input s.responses, rfl, h input responses⟩

/-- A command gives one response, which is one the core may give. -/
theorem exec_responses {i : Instr} {s t : State} (h : exec i s = .next t) : ∃ r, ResponseWf r ∧ t.responses = s.responses ++ [r] := by
  obtain ⟨ctx, draws, r, hr, hexec⟩ := exec_ignoresPort i s
  obtain rfl := Host.Outcome.next.inj (h.symm.trans (hexec s.input s.responses))
  exact ⟨r, hr, rfl⟩

/-- Settles O22: a step adds a command's response, or ILLEGAL with no output, or nothing. -/
theorem stepKeepsResponsesWellFormed : Obligations.StepKeepsResponsesWellFormed := by
  unfold Obligations.StepKeepsResponsesWellFormed
  intro s t hs h
  have add {r : Response} (hr : ResponseWf r) (ht : t.responses = s.responses ++ [r]) : ResponsesWf t := by
    intro r' hr'
    rw [ht] at hr'
    rcases List.mem_append.mp hr' with hr' | hr'
    · exact hs r' hr'
    · obtain rfl := List.mem_singleton.mp hr'
      exact hr
  rcases step_cases s with ⟨i, rest, -, hstep⟩ | ⟨rest, -, hstep⟩ | ⟨-, hstep⟩
  · obtain ⟨r, hr, ht⟩ := exec_responses (hstep.symm.trans h)
    exact add hr ht
  · obtain rfl := Host.Outcome.next.inj (h.symm.trans hstep)
    exact add (r := ⟨.illegal, []⟩) ⟨by simp, fun _ => rfl⟩ rfl
  · obtain rfl := Host.Outcome.next.inj (h.symm.trans hstep)
    exact hs

/-- A DIGEST only answers: what it leaves is the state with one more response (43_engine R164). -/
theorem execDigest_eq_respond {c : CtxIndex} {hex : Bool} {s t : State} (h : execDigest c hex s = .next t) :
    t = withPort s s.input t.responses := by
  rcases execDigest_cases c hex s with ⟨-, hexec⟩ | ⟨_, -, -, hexec⟩ | ⟨_, -, -, -, hexec⟩ | ⟨_, -, -, -, hexec⟩
  all_goals
    obtain rfl := Host.Outcome.next.inj (h.symm.trans hexec)
    rfl

/-- Settles O35: a DIGEST changes the port alone, which no command looks at, a second DIGEST included. -/
theorem digestDoesNotConsume : Obligations.DigestDoesNotConsume := by
  unfold Obligations.DigestDoesNotConsume
  intro c hex i s t h
  have ht := execDigest_eq_respond h
  have again (j : Instr) : ∃ u v r, exec j t = .next u ∧ exec j s = .next v ∧ u.responses = t.responses ++ [r] ∧
      v.responses = s.responses ++ [r] ∧ u.ctx = v.ctx := by
    obtain ⟨ctx, draws, r, -, hexec⟩ := exec_ignoresPort j s
    have hu := hexec s.input t.responses
    rw [← ht] at hu
    exact ⟨_, _, r, hu, hexec s.input s.responses, rfl, rfl, rfl⟩
  refine ⟨again i, ?_⟩
  obtain ⟨u, v, r, hu, hv, hur, hvr, -⟩ := again (.digest c hex)
  obtain rfl := Host.Outcome.next.inj (hv.symm.trans h)
  exact ⟨u, r, hu, hvr, hur⟩

end Sys2Proof.Proofs
end

