-- ==== Sys2Proof/Proofs/Agreement.lean ====
section
/-! PROOF. What each command leaves unchanged (spec/10_state.md section 4), and that the fields no rule defines are never seen: two states that
agree on the contexts a command names and on the table answer it alike and agree again. From that, commands on different contexts commute
(spec/20_memory.md section 4). -/

namespace Sys2Proof.Proofs

open Sys2Proof.Machine Sys2Proof.Safety

/-! ## Contexts that agree -/

theorem contextSame_refl (C : Context) : contextSame C C := ⟨rfl, fun _ => ⟨rfl, rfl, rfl, rfl⟩, fun _ => rfl⟩

theorem contextSame_symm {C D : Context} (h : contextSame C D) : contextSame D C := by
  obtain ⟨hmode, hfields, hpos⟩ := h
  refine ⟨hmode.symm, fun hm => ?_, fun hm => (hpos (hmode.trans hm)).symm⟩
  obtain ⟨hrow, hlanes, hbuflen, hpending⟩ := hfields (hmode.trans_ne hm)
  exact ⟨hrow.symm, hlanes.symm, hbuflen.symm, hpending.symm⟩

theorem contextSame_trans {C D E : Context} (h : contextSame C D) (h' : contextSame D E) : contextSame C E := by
  obtain ⟨hmode, hfields, hpos⟩ := h
  obtain ⟨hmode', hfields', hpos'⟩ := h'
  refine ⟨hmode.trans hmode', fun hm => ?_, fun hm => (hpos hm).trans (hpos' (hmode.symm.trans hm))⟩
  obtain ⟨hrow, hlanes, hbuflen, hpending⟩ := hfields hm
  obtain ⟨hrow', hlanes', hbuflen', hpending'⟩ := hfields' (hmode.symm.trans_ne hm)
  exact ⟨hrow.trans hrow', hlanes.trans hlanes', hbuflen.trans hbuflen', hpending.trans hpending'⟩

/-- Two contexts that hold no object agree, whatever else they hold. -/
theorem contextSame_of_unconfigured {C D : Context} (hC : C.mode = .unconfigured) (hD : D.mode = .unconfigured) : contextSame C D :=
  ⟨hC.trans hD.symm, fun hm => absurd hC hm, fun hm => by simp [hC] at hm⟩

/-- Configured contexts that agree have the same configuration, field by field. -/
theorem config_of_same {C D : Context} (h : contextSame C D) (hm : C.mode ≠ .unconfigured) :
    C.var = D.var ∧ C.rate = D.rate ∧ C.digestSize = D.digestSize ∧ C.suffix = D.suffix ∧ C.blockSize = D.blockSize :=
  VariantRow.mk.inj (h.2.1 hm).1

/-- Contexts that agree have the same CTXINFO (10_state R43). -/
theorem info_of_same {C D : Context} (h : contextSame C D) : C.info = D.info := by
  by_cases hm : C.mode = .unconfigured
  · rw [info_of_unconfigured hm, info_of_unconfigured (h.1.symm.trans hm)]
  · obtain ⟨hvar, hrate, hdigest, hsuffix, hblock⟩ := config_of_same h hm
    rw [info_of_configured rfl hm, info_of_configured h.1.symm hm, hvar, hrate, hdigest, hsuffix, hblock]

/-- Configured contexts that agree are finalized to the same state. -/
theorem finalized_of_same {C D : Context} (h : contextSame C D) (hm : C.mode ≠ .unconfigured) : C.finalized = D.finalized := by
  obtain ⟨-, hlanes, -, hpending⟩ := h.2.1 hm
  obtain ⟨-, hrate, -, hsuffix, -⟩ := config_of_same h hm
  rw [Context.finalized, hlanes, hpending, hrate, hsuffix, ← Context.finalized]

/-- Configured contexts that agree have the same digest. -/
theorem digest_of_same {C D : Context} (h : contextSame C D) (hm : C.mode ≠ .unconfigured) : C.digest = D.digest := by
  obtain ⟨-, hrate, hdigest, -, -⟩ := config_of_same h hm
  rw [Context.digest, hrate, hdigest, finalized_of_same h hm, ← Context.digest]

/-- ABSORBING contexts that agree still agree after the same payload. -/
theorem absorb_same {C D : Context} (h : contextSame C D) (hm : C.mode = .absorbing) (hR1 : 1 ≤ C.rate.toNat)
    (hR : C.rate.toNat ≤ Config.rateMax) (payload : List Byte) : contextSame (C.absorb payload) (D.absorb payload) := by
  have hne : C.mode ≠ .unconfigured := by simp [hm]
  obtain ⟨hrow, hlanes, -, hpending⟩ := h.2.1 hne
  obtain ⟨-, hrate, -, -, -⟩ := config_of_same h hne
  obtain ⟨hlanesC, hpendingC, hbuflenC⟩ := Context.absorb_eq hR1 hR payload
  obtain ⟨hlanesD, hpendingD, hbuflenD⟩ := Context.absorb_eq (hrate ▸ hR1) (hrate ▸ hR) payload
  refine ⟨h.1, fun _ => ⟨hrow, ?_, BitVec.eq_of_toNat_eq ?_, ?_⟩, fun hs => by simp [hm] at hs⟩
  · rw [hlanesC, hlanesD, hrate, hlanes, hpending]
  · rw [hbuflenC, hbuflenD, hrate, hpending]
  · rw [hpendingC, hpendingD, hrate, hpending]

/-- Configured contexts that agree still agree when made ready to squeeze. -/
theorem readyToSqueeze_same {C D : Context} (h : contextSame C D) (hm : C.mode ≠ .unconfigured) :
    contextSame C.readyToSqueeze D.readyToSqueeze := by
  cases hmode : C.mode with
  | unconfigured => exact absurd hmode hm
  | absorbing =>
    rw [readyToSqueeze_of_absorbing hmode, readyToSqueeze_of_absorbing (h.1.symm.trans hmode)]
    exact ⟨rfl, fun _ => ⟨(h.2.1 hm).1, finalized_of_same h hm, rfl, by simp⟩, fun _ => rfl⟩
  | squeezing => rwa [readyToSqueeze_of_squeezing hmode, readyToSqueeze_of_squeezing (h.1.symm.trans hmode)]

/-- SQUEEZING contexts that agree give the same bytes, and are left in the same state and cursor. -/
theorem squeezed_of_same {C D : Context} (h : contextSame C D) (hm : C.mode = .squeezing) (n : Nat) : C.squeezed n = D.squeezed n := by
  have hne : C.mode ≠ .unconfigured := by simp [hm]
  obtain ⟨-, hlanes, -, -⟩ := h.2.1 hne
  obtain ⟨-, hrate, -, -, -⟩ := config_of_same h hne
  rw [Context.squeezed, hlanes, hrate, h.2.2 hm, ← Context.squeezed]

/-- So they still agree. -/
theorem afterSqueeze_same {C D : Context} (h : contextSame C D) (hm : C.mode = .squeezing) (n : Nat) :
    contextSame (C.afterSqueeze n) (D.afterSqueeze n) := by
  have hsq := squeezed_of_same h hm n
  refine ⟨h.1, fun hne => ?_, fun _ => by rw [Context.afterSqueeze_sqpos, hsq, ← Context.afterSqueeze_sqpos]⟩
  obtain ⟨hrow, -, hbuflen, hpending⟩ := h.2.1 hne
  exact ⟨hrow, congrArg Squeezed.lanes hsq, hbuflen, hpending⟩

/-! ## Commands in states that agree -/

/-- An index that names a context is below NCTX. -/
theorem lt_nctx_of_context {s : State} {c : CtxIndex} {C : Context} (h : s.context c = some C) : c.toNat < s.nctx :=
  (List.getElem?_eq_some_iff.mp h).1

/-- The two states answer the command alike, and agree on the context it writes. -/
def AnswersSame (i : Instr) (s t : State) : Prop :=
  ∃ s' t' r, exec i s = .next s' ∧ exec i t = .next t' ∧ s'.responses = s.responses ++ [r] ∧ t'.responses = t.responses ++ [r] ∧
    ∀ c, writtenContext i = some c → Option.Rel contextSame (s'.context c) (t'.context c)

/-- The context a command writes is one it names. -/
theorem mem_namedContexts_of_written {i : Instr} {c : CtxIndex} (h : writtenContext i = some c) : c ∈ namedContexts i := by
  cases i <;> simp_all [writtenContext, namedContexts]

/-- A command that writes no context has only to answer alike. -/
theorem answersSame_of_read {i : Instr} {s t : State} {st : Status} {out : List Byte} (hnone : writtenContext i = none)
    (h : exec i s = .next (s.respond st out)) (h' : exec i t = .next (t.respond st out)) : AnswersSame i s t :=
  ⟨_, _, ⟨st, out⟩, h, h', rfl, rfl, fun c hc => by simp [hnone] at hc⟩

/-- Where the command only answers, and alike, the context it might have written agrees as before. -/
theorem answersSame_of_respond {i : Instr} {s t : State} {c : CtxIndex} {C D : Context} {st : Status} {out : List Byte}
    (hc : writtenContext i = some c) (hC : s.context c = some C) (hD : t.context c = some D) (hsame : contextSame C D)
    (h : exec i s = .next (s.respond st out)) (h' : exec i t = .next (t.respond st out)) : AnswersSame i s t := by
  refine ⟨_, _, ⟨st, out⟩, h, h', rfl, rfl, fun k hk => ?_⟩
  obtain rfl := Option.some.inj (hc.symm.trans hk)
  rw [State.respond_context, State.respond_context, hC, hD]
  exact .some hsame

/-- Where the command writes its context and answers, the contexts written have to agree. -/
theorem answersSame_of_write {i : Instr} {s t u v : State} {c : CtxIndex} {C C' D D' : Context} {out : List Byte}
    (hc : writtenContext i = some c) (hC : s.context c = some C) (hC' : t.context c = some C')
    (h : exec i s = .next (u.respond .ok out)) (h' : exec i t = .next (v.respond .ok out))
    (hu : u.ctx = (s.setContext c D).ctx) (hv : v.ctx = (t.setContext c D').ctx) (hur : u.responses = s.responses)
    (hvr : v.responses = t.responses) (hD : contextSame D D') : AnswersSame i s t := by
  refine ⟨_, _, ⟨.ok, out⟩, h, h', by rw [State.respond_responses, hur], by rw [State.respond_responses, hvr], fun k hk => ?_⟩
  obtain rfl : c = k := Option.some.inj (hc.symm.trans hk)
  have huc : u.context c = some D := by rw [State.context, hu]; exact State.setContext_context_self hC
  have hvc : v.context c = some D' := by rw [State.context, hv]; exact State.setContext_context_self hC'
  rw [State.respond_context, State.respond_context, huc, hvc]
  exact .some hD

/-- UPDATE of contexts that agree: an error by their mode, or the same payload absorbed. -/
theorem update_answersSame {s t : State} (hs : StateWf s) {c : CtxIndex} {C D : Context} (hC : s.context c = some C)
    (hD : t.context c = some D) (hsame : contextSame C D) (len : Word) (payload : List Byte) :
    AnswersSame (.update c len payload) s t := by
  have hmode := hsame.1.symm
  cases hm : C.mode with
  | unconfigured =>
    exact answersSame_of_respond rfl hC hD hsame (execUpdate_of_unconfigured hC hm len payload)
      (execUpdate_of_unconfigured hD (hmode.trans hm) len payload)
  | squeezing =>
    exact answersSame_of_respond rfl hC hD hsame (execUpdate_of_squeezing hC hm len payload)
      (execUpdate_of_squeezing hD (hmode.trans hm) len payload)
  | absorbing =>
    obtain ⟨hR1, hR, -⟩ := bounds_of_configured hs hC (by simp [hm])
    exact answersSame_of_write rfl hC hD (execUpdate_of_absorbing_memRead hC hm len payload)
      (execUpdate_of_absorbing_memRead hD (hmode.trans hm) len payload) rfl rfl rfl rfl (absorb_same hsame hm hR1 hR _)

/-- DIGEST of contexts that agree: the same checks, and the same digest. -/
theorem digest_answersSame {s t : State} {c : CtxIndex} {C D : Context} (hC : s.context c = some C) (hD : t.context c = some D)
    (hsame : contextSame C D) (hex : Bool) : AnswersSame (.digest c hex) s t := by
  have hmode := hsame.1.symm
  by_cases hm : C.mode = .unconfigured
  · exact answersSame_of_read rfl (execDigest_of_unconfigured hC hm hex) (execDigest_of_unconfigured hD (hmode.trans hm) hex)
  have hm' : D.mode ≠ .unconfigured := hmode.trans_ne hm
  obtain ⟨-, -, hsize, -, -⟩ := config_of_same hsame hm
  by_cases hz : C.digestSize = 0
  · exact answersSame_of_read rfl (execDigest_of_xof hC hm hz hex) (execDigest_of_xof hD hm' (hsize.symm.trans hz) hex)
  · have hanswer := execDigest_of_fixed hC hm hz hex
    rw [digest_of_same hsame hm] at hanswer
    exact answersSame_of_read rfl hanswer (execDigest_of_fixed hD hm' (hsize.symm.trans_ne hz) hex)

/-- SQUEEZE of contexts that agree: the same checks, and the same bytes squeezed. -/
theorem squeeze_answersSame {s t : State} {c : CtxIndex} {C D : Context} (hC : s.context c = some C) (hD : t.context c = some D)
    (hsame : contextSame C D) (hex : Bool) (n : Word) : AnswersSame (.squeeze c hex n) s t := by
  have hexec := execSqueeze_of_context hC hex n
  have hexec' := execSqueeze_of_context hD hex n
  rw [← hsame.1] at hexec'
  by_cases hm : C.mode = .unconfigured
  · rw [if_pos hm] at hexec hexec'
    exact answersSame_of_respond rfl hC hD hsame hexec hexec'
  obtain ⟨-, -, hsize, -, -⟩ := config_of_same hsame hm
  rw [if_neg hm] at hexec hexec'
  rw [← hsize] at hexec'
  by_cases hz : C.digestSize ≠ 0
  · rw [if_pos hz] at hexec hexec'
    exact answersSame_of_respond rfl hC hD hsame hexec hexec'
  · have hready := readyToSqueeze_same hsame hm
    have hsqueezing := Context.readyToSqueeze_mode hm
    rw [if_neg hz] at hexec hexec'
    rw [squeezed_of_same hready hsqueezing] at hexec
    exact answersSame_of_write rfl hC hD hexec hexec' rfl rfl rfl rfl (afterSqueeze_same hready hsqueezing n.toNat)

/-- COPY from sources that agree, onto contexts that agree: each copy agrees with its own source. -/
theorem copy_answersSame {s t : State} (hs : StateWf s) (ht : StateWf t) {dst src : CtxIndex} {C D S T : Context}
    (hC : s.context dst = some C) (hD : t.context dst = some D) (hdst : contextSame C D) (hS : s.context src = some S)
    (hT : t.context src = some T) (hsrc : contextSame S T) : AnswersSame (.copy dst src) s t := by
  have hmode := hsrc.1.symm
  by_cases hm : S.mode = .unconfigured
  · exact answersSame_of_respond rfl hC hD hdst (execCopy_of_unconfigured hC hS hm) (execCopy_of_unconfigured hD hT (hmode.trans hm))
  have hm' : T.mode ≠ .unconfigured := hmode.trans_ne hm
  by_cases he : dst = src
  · subst he
    exact answersSame_of_respond rfl hC hD hdst (execCopy_self hS hm) (execCopy_self hT hm')
  · have hcopy := contextSame_copyFrom C (buflen_le_of_configured hs hS hm)
    have hcopy' := contextSame_copyFrom D (buflen_le_of_configured ht hT hm')
    exact answersSame_of_write rfl hC hD (execCopy_of_configured he hC hS hm) (execCopy_of_configured he hD hT hm') rfl rfl rfl rfl
      (contextSame_trans hcopy (contextSame_trans hsrc (contextSame_symm hcopy')))

/-- INIT configures the context by the same row, whatever it held. -/
theorem init_answersSame {s t : State} (htable : s.table = t.table) {c : CtxIndex} {C D : Context} (hC : s.context c = some C)
    (hD : t.context c = some D) (hsame : contextSame C D) (v : VariantId) : AnswersSame (.init c v) s t := by
  have hrow' : t.row v = s.row v := by rw [State.row, ← htable, ← State.row]
  cases hrow : s.row v with
  | none =>
    exact answersSame_of_respond rfl hC hD hsame (execInit_of_unassigned (lt_nctx_of_context hC) hrow)
      (execInit_of_unassigned (lt_nctx_of_context hD) (hrow'.trans hrow))
  | some row =>
    exact answersSame_of_write rfl hC hD (execInit_of_row hC hrow) (execInit_of_row hD (hrow'.trans hrow)) rfl rfl rfl rfl
      ⟨rfl, fun _ => ⟨rfl, rfl, rfl, by simp⟩, fun h => by simp at h⟩

/-- FREE of contexts that agree leaves no object in either, or there was none. -/
theorem free_answersSame {s t : State} {c : CtxIndex} {C D : Context} (hC : s.context c = some C) (hD : t.context c = some D)
    (hsame : contextSame C D) : AnswersSame (.free c) s t := by
  have hmode := hsame.1.symm
  by_cases hm : C.mode = .unconfigured
  · exact answersSame_of_respond rfl hC hD hsame (execFree_of_unconfigured hC hm) (execFree_of_unconfigured hD (hmode.trans hm))
  · exact answersSame_of_write rfl hC hD (execFree_of_configured hC hm) (execFree_of_configured hD (hmode.trans_ne hm)) rfl rfl
      rfl rfl (contextSame_of_unconfigured (Context.freed_mode _) (Context.freed_mode _))

/-- Well-formed states that agree on the contexts a command names and on the table answer it alike. -/
theorem exec_answersSame {i : Instr} {s t : State} (hs : StateWf s) (ht : StateWf t) (htable : s.table = t.table)
    (hctx : ∀ c ∈ namedContexts i, Option.Rel contextSame (s.context c) (t.context c)) : AnswersSame i s t := by
  by_cases hbad : ∃ c ∈ namedContexts i, s.context c = none
  · obtain ⟨c, hc, hnone⟩ := hbad
    have hnone' : t.context c = none := by
      have hrel := hctx c hc
      rw [hnone] at hrel
      cases hrel' : t.context c <;> simp_all
    exact ⟨_, _, ⟨.badContext, []⟩, exec_of_badContext hc ((State.context_eq_none s c).mp hnone),
      exec_of_badContext hc ((State.context_eq_none t c).mp hnone'), rfl, rfl,
      fun k hk => hctx k (mem_namedContexts_of_written hk)⟩
  have both {c : CtxIndex} (hc : c ∈ namedContexts i) :
      ∃ C D, s.context c = some C ∧ t.context c = some D ∧ contextSame C D := by
    have hrel := hctx c hc
    cases hC : s.context c with
    | none => exact absurd ⟨c, hc, hC⟩ hbad
    | some C =>
      rw [hC] at hrel
      cases hD : t.context c <;> simp_all
  have self {c : CtxIndex} : c ∈ [c] := List.mem_singleton.mpr rfl
  cases i with
  | init c v =>
    obtain ⟨C, D, hC, hD, hsame⟩ := both self
    exact init_answersSame htable hC hD hsame v
  | update c len payload =>
    obtain ⟨C, D, hC, hD, hsame⟩ := both self
    exact update_answersSame hs hC hD hsame len payload
  | digest c hex =>
    obtain ⟨C, D, hC, hD, hsame⟩ := both self
    exact digest_answersSame hC hD hsame hex
  | squeeze c hex n =>
    obtain ⟨C, D, hC, hD, hsame⟩ := both self
    exact squeeze_answersSame hC hD hsame hex n
  | copy dst src =>
    obtain ⟨C, D, hC, hD, hdst⟩ := both (List.mem_cons_self ..)
    obtain ⟨S, T, hS, hT, hsrc⟩ := both (List.mem_cons_of_mem _ self)
    exact copy_answersSame hs ht hC hD hdst hS hT hsrc
  | free c =>
    obtain ⟨C, D, hC, hD, hsame⟩ := both self
    exact free_answersSame hC hD hsame
  | query c =>
    obtain ⟨C, D, hC, hD, hsame⟩ := both self
    exact answersSame_of_read rfl (execQuery_of_info hC (info_of_same hsame)) (execQuery_of_info hD rfl)

/-! ## The frame of every command -/

/-- A command keeps NCTX and the bytes that wait (10_state R41). -/
theorem exec_nctx_input {i : Instr} {s t : State} (h : exec i s = .next t) : t.nctx = s.nctx ∧ t.input = s.input := by
  rcases exec_cases i s with ⟨st, out, hexec, -⟩ | ⟨c, C, D, out, n, -, -, hexec⟩
  · obtain rfl := Host.Outcome.next.inj (h.symm.trans hexec)
    exact ⟨rfl, rfl⟩
  · obtain rfl := Host.Outcome.next.inj (h.symm.trans hexec)
    exact ⟨State.setContext_nctx s c D, rfl⟩

/-- INIT leaves every byte of BUF (43_engine R162, log entry 9). -/
theorem execInit_buf {c : CtxIndex} {v : VariantId} {s t : State} {C D : Context} (h : execInit c v s = .next t)
    (hC : s.context c = some C) (hD : t.context c = some D) : D.buf = C.buf := by
  rcases execInit_cases c v s with ⟨-, hexec⟩ | ⟨_, -, -, hexec⟩ | ⟨C', row, hC', -, hexec⟩
  all_goals obtain rfl := Host.Outcome.next.inj (h.symm.trans hexec)
  · obtain rfl := Option.some.inj (hC.symm.trans hD)
    rfl
  · obtain rfl := Option.some.inj (hC.symm.trans hD)
    rfl
  · obtain rfl := Option.some.inj (hC.symm.trans hC')
    obtain rfl := Option.some.inj ((State.setContext_context_self hC).symm.trans hD)
    rfl

/-- UPDATE leaves the mode, the configuration and the cursor of its context, and draws no free value (43_engine R163). -/
theorem execUpdate_frame {c : CtxIndex} {len : Word} {payload : List Byte} {s t : State} {C D : Context}
    (h : execUpdate c len payload s = .next t) (hC : s.context c = some C) (hD : t.context c = some D) :
    D.mode = C.mode ∧ configRow D = configRow C ∧ D.sqpos = C.sqpos ∧ t.draws = s.draws := by
  have unchanged {st : Status} (hexec : execUpdate c len payload s = .next (s.respond st [])) :
      D.mode = C.mode ∧ configRow D = configRow C ∧ D.sqpos = C.sqpos ∧ t.draws = s.draws := by
    obtain rfl := Host.Outcome.next.inj (h.symm.trans hexec)
    obtain rfl := Option.some.inj (hC.symm.trans hD)
    exact ⟨rfl, rfl, rfl, rfl⟩
  cases hm : C.mode with
  | unconfigured => exact hm ▸ unchanged (execUpdate_of_unconfigured hC hm len payload)
  | squeezing => exact hm ▸ unchanged (execUpdate_of_squeezing hC hm len payload)
  | absorbing =>
    obtain rfl := Host.Outcome.next.inj (h.symm.trans (execUpdate_of_absorbing_memRead hC hm len payload))
    obtain rfl := Option.some.inj ((State.setContext_context_self hC).symm.trans hD)
    exact ⟨hm, rfl, rfl, rfl⟩

/-- SQUEEZE leaves the configuration and every byte of BUF of its context, and draws no free value (43_engine R165, log entry 9). -/
theorem execSqueeze_frame {c : CtxIndex} {hex : Bool} {n : Word} {s t : State} {C D : Context} (h : execSqueeze c hex n s = .next t)
    (hC : s.context c = some C) (hD : t.context c = some D) : configRow D = configRow C ∧ D.buf = C.buf ∧ t.draws = s.draws := by
  rw [execSqueeze_of_context hC] at h
  split_ifs at h
  all_goals obtain rfl := Host.Outcome.next.inj h
  · obtain rfl := Option.some.inj (hC.symm.trans hD)
    exact ⟨rfl, rfl, rfl⟩
  · obtain rfl := Option.some.inj (hC.symm.trans hD)
    exact ⟨rfl, rfl, rfl⟩
  · obtain rfl := Option.some.inj ((State.setContext_context_self hC).symm.trans hD)
    exact ⟨configRow_readyToSqueeze_afterSqueeze C _, Context.readyToSqueeze_buf C, rfl⟩

/-- QUERY only answers (43_engine R168). -/
theorem execQuery_eq_respond {c : CtxIndex} {s t : State} (h : execQuery c s = .next t) : t = { s with responses := t.responses } := by
  rcases execQuery_cases c s with ⟨-, hexec⟩ | ⟨_, -, hexec⟩
  all_goals
    obtain rfl := Host.Outcome.next.inj (h.symm.trans hexec)
    rfl

/-- Settles O26: what every command keeps, and the further frame of INIT, UPDATE, SQUEEZE, DIGEST and QUERY. -/
theorem frameOfEveryCommand : Obligations.FrameOfEveryCommand := by
  unfold Obligations.FrameOfEveryCommand
  intro i s t h
  obtain ⟨hnctx, hinput⟩ := exec_nctx_input h
  refine ⟨hnctx, exec_table h, hinput, fun k hk => exec_context_of_not_written h hk, ?_, ?_, ?_, ?_⟩
  · rintro c v C D rfl hC hD
    exact execInit_buf h hC hD
  · rintro c len p C D rfl hC hD
    exact execUpdate_frame h hC hD
  · rintro c hex n C D rfl hC hD
    exact execSqueeze_frame h hC hD
  · rintro c hex (rfl | rfl)
    · exact execDigest_eq_respond h
    · exact execQuery_eq_respond h

/-! ## States that agree -/

/-- Of states that agree, the contexts agree index by index. -/
theorem context_of_stateSame {s t : State} (h : StateSame s t) (k : CtxIndex) :
    Option.Rel contextSame (s.context k) (t.context k) := by
  obtain ⟨hlen, hget⟩ := List.forall₂_iff_get.mp h.1
  by_cases hk : k.toNat < s.ctx.length
  · have hrel := hget k.toNat hk (hlen ▸ hk)
    simpa [State.context, hk, hlen ▸ hk] using hrel
  · simp [State.context, Nat.not_lt.mp hk, hlen ▸ Nat.not_lt.mp hk]

/-- States of at most 16 contexts, as the CTX field can name, agree where their contexts agree index by index. -/
theorem stateSame_of_contexts {s t : State} (h16 : s.nctx ≤ Config.nctxMax) (hnctx : s.nctx = t.nctx) (htable : s.table = t.table)
    (hctx : ∀ k, Option.Rel contextSame (s.context k) (t.context k)) : StateSame s t := by
  refine ⟨List.forall₂_iff_get.mpr ⟨hnctx, fun k hk hk' => ?_⟩, htable⟩
  have hindex : (BitVec.ofNat 4 k).toNat = k := Nat.mod_eq_of_lt (Nat.lt_of_lt_of_le hk h16)
  simpa [State.context, hindex, hk, hk'] using hctx (BitVec.ofNat 4 k)

/-- Settles O31: the command's answer and the context it writes agree, and every other context is as it was. -/
theorem unspecifiedFieldsAreUnobservable : Obligations.UnspecifiedFieldsAreUnobservable := by
  unfold Obligations.UnspecifiedFieldsAreUnobservable
  intro i s t hs ht hsame
  obtain ⟨s', t', r, h, h', hr, hr', hwritten⟩ := exec_answersSame (i := i) hs ht hsame.2 fun c _ => context_of_stateSame hsame c
  refine ⟨s', t', r, h, h', hr, hr', stateSame_of_contexts (exec_stateWf hs h).1.2 ?_ ?_ fun k => ?_⟩
  · rw [(exec_nctx_input h).1, (exec_nctx_input h').1]
    exact hsame.1.length_eq
  · rw [exec_table h, exec_table h', hsame.2]
  · by_cases hk : writtenContext i = some k
    · exact hwritten k hk
    · rw [exec_context_of_not_written h hk, exec_context_of_not_written h' hk]
      exact context_of_stateSame hsame k

/-! ## Commands on different contexts -/

theorem rel_contextSame_refl (o : Option Context) : Option.Rel contextSame o o := by
  cases o with
  | none => exact .none
  | some C => exact .some (contextSame_refl C)

theorem rel_contextSame_symm {o p : Option Context} (h : Option.Rel contextSame o p) : Option.Rel contextSame p o := by
  cases h with
  | none => exact .none
  | some h => exact .some (contextSame_symm h)

/-- A command answers as before after a command that names none of its contexts, and leaves an agreeing context in either order. -/
theorem exec_answersSame_after {i j : Instr} {s s1 : State} (hs : StateWf s) (hdisjoint : ∀ c ∈ namedContexts i, c ∉ namedContexts j)
    (h : exec i s = .next s1) : AnswersSame j s s1 := by
  refine exec_answersSame hs (exec_stateWf hs h) (exec_table h).symm fun c hc => ?_
  have hk : writtenContext i ≠ some c := fun hw => hdisjoint c (mem_namedContexts_of_written hw) hc
  rw [exec_context_of_not_written h hk]
  exact rel_contextSame_refl _

/-- Settles O33: each command answers the same before and after the other; a context written by one is as that one leaves it, in either
order, and a context written by neither is as it was. -/
theorem commandsOnDifferentContextsCommute : Obligations.CommandsOnDifferentContextsCommute := by
  unfold Obligations.CommandsOnDifferentContextsCommute
  intro i j s hs hdisjoint
  have hdisjoint' : ∀ c ∈ namedContexts j, c ∉ namedContexts i := fun c hj hi => hdisjoint c hi hj
  obtain ⟨s1, _, _, h1, -⟩ := exec_answersSame (i := i) hs hs rfl fun _ _ => rel_contextSame_refl _
  obtain ⟨t1, s2, rj, g1, h2, hrt1, hrs2, hj⟩ := exec_answersSame_after (j := j) hs hdisjoint h1
  obtain ⟨s1', t2, ri, h1', g2, hrs1, hrt2, hi⟩ := exec_answersSame_after (j := i) hs hdisjoint' g1
  obtain rfl := Host.Outcome.next.inj (h1'.symm.trans h1)
  refine ⟨s1', s2, t1, t2, ri, rj, h1, h2, g1, g2, by simp [hrs2, hrs1], by simp [hrt2, hrt1],
    stateSame_of_contexts (exec_stateWf (exec_stateWf hs h1) h2).1.2 ?_ ?_ fun k => ?_⟩
  · rw [(exec_nctx_input h2).1, (exec_nctx_input h1).1, (exec_nctx_input g2).1, (exec_nctx_input g1).1]
  · rw [exec_table h2, exec_table h1, exec_table g2, exec_table g1]
  · by_cases hki : writtenContext i = some k
    · have hkj : writtenContext j ≠ some k := fun hkj =>
        hdisjoint k (mem_namedContexts_of_written hki) (mem_namedContexts_of_written hkj)
      rw [exec_context_of_not_written h2 hkj]
      exact hi k hki
    · rw [exec_context_of_not_written g2 hki]
      by_cases hkj : writtenContext j = some k
      · exact rel_contextSame_symm (hj k hkj)
      · rw [exec_context_of_not_written h2 hkj, exec_context_of_not_written h1 hki, exec_context_of_not_written g1 hkj]
        exact rel_contextSame_refl _

end Sys2Proof.Proofs
end

