-- ==== Sys2Proof/Proofs/EngineLaws.lean ====
section
/-! PROOF. The laws of the incremental engine (spec/43_engine_commands.md section 3). A context that has taken the message M in any number of
UPDATEs has absorbed the full blocks of M and buffered the rest, so its finalized state is that of the single-shot functions; and a context
that has output N bytes stands at byte N of one stream, wherever the SQUEEZEs before were cut. -/

namespace Sys2Proof.Proofs

open Sys2Proof.Machine Sys2Proof.Safety

/-! ## Lists of commands -/

/-- What a list of commands does, followed by another list, is the second after the first. -/
theorem execAll_append {is js : List Instr} {s t : State} (h : execAll is s = .next t) : execAll (is ++ js) s = execAll js t := by
  induction is generalizing s with
  | nil =>
    obtain rfl := Host.Outcome.next.inj h
    rfl
  | cons i is ih =>
    rw [List.cons_append, execAll]
    rw [execAll] at h
    split at h
    next u hu => exact ih h
    next => cases h
    next => cases h

/-- One command as a list. -/
theorem execAll_singleton {i : Instr} {s t : State} (h : exec i s = .next t) : execAll [i] s = .next t := by
  simp only [execAll, h]

/-- A command and then a list. -/
theorem execAll_cons {i : Instr} {is : List Instr} {s t : State} (h : exec i s = .next t) : execAll (i :: is) s = execAll is t :=
  execAll_append (is := [i]) (execAll_singleton h)

/-! ## Absorbing in pieces -/

/-- Absorbing q + p blocks is absorbing q, then p of the rest. -/
theorem absorbBlocks_add (R q p : Nat) (A : Lanes) (M : List Byte) :
    absorbBlocks R (q + p) A M = absorbBlocks R p (absorbBlocks R q A M) (M.drop (q * R)) := by
  induction q generalizing A M with
  | zero => simp only [Nat.zero_add, absorbBlocks_zero, Nat.zero_mul, List.drop_zero]
  | succ q ih =>
    have hcount : q + 1 + p = q + p + 1 := by omega
    have hbytes : (q + 1) * R = R + q * R := by rw [Nat.succ_mul, Nat.add_comm]
    rw [hcount, hbytes, absorbBlocks_succ R (q + p), ih, absorbBlocks_succ R q, List.drop_drop]

/-- Full blocks are absorbed the same whatever follows them. -/
theorem absorbBlocks_append {R q : Nat} {M : List Byte} (h : q * R ≤ M.length) (A : Lanes) (P : List Byte) :
    absorbBlocks R q A (M ++ P) = absorbBlocks R q A M := by
  induction q generalizing A M with
  | zero => rw [absorbBlocks_zero, absorbBlocks_zero]
  | succ q ih =>
    rw [Nat.succ_mul] at h
    rw [absorbBlocks_succ, absorbBlocks_succ, List.take_append_of_le_length (by omega), List.drop_append_of_le_length (by omega),
      ih (by rw [List.length_drop]; omega)]

/-- Absorbing the full blocks of M, and then those of what is left of M and P, is absorbing the full blocks of M || P, and leaves the same
remainder. -/
theorem absorbBlocks_resume {R : Nat} (hR1 : 1 ≤ R) (A : Lanes) {M P rest : List Byte} (hrest : rest = M.drop (M.length / R * R) ++ P) :
    absorbBlocks R (rest.length / R) (absorbBlocks R (M.length / R) A M) rest = absorbBlocks R ((M ++ P).length / R) A (M ++ P) ∧
      rest.drop (rest.length / R * R) = (M ++ P).drop ((M ++ P).length / R * R) := by
  have hle : M.length / R * R ≤ M.length := Nat.div_mul_le_self _ _
  rw [← List.drop_append_of_le_length hle] at hrest
  have hlen : (M ++ P).length = rest.length + M.length / R * R := by
    rw [hrest, List.length_drop, Nat.sub_add_cancel (by rw [List.length_append]; omega)]
  have hq : (M ++ P).length / R = M.length / R + rest.length / R := by
    rw [hlen, Nat.add_mul_div_right _ _ hR1, Nat.add_comm]
  constructor
  · rw [hq, absorbBlocks_add, absorbBlocks_append hle, ← hrest]
  · rw [hq, Nat.add_mul, ← List.drop_drop, ← hrest]

/-- The context has taken the message M since INIT by the row: the full blocks of M are absorbed into the zero state, and what is left of M
is buffered. -/
structure HasTaken (row : VariantRow) (M : List Byte) (C : Context) : Prop where
  mode : C.mode = .absorbing
  rate : C.rate = row.rate
  digestSize : C.digestSize = row.digestSize
  suffix : C.suffix = row.suffix
  lanes : C.lanes = absorbBlocks row.rate.toNat (M.length / row.rate.toNat) .zero M
  pending : C.pending = M.drop (M.length / row.rate.toNat * row.rate.toNat)

/-- INIT leaves a context that has taken nothing. -/
theorem hasTaken_configure (C : Context) (row : VariantRow) (q : Byte) : HasTaken row [] (C.configure row q) where
  mode := rfl
  rate := rfl
  digestSize := rfl
  suffix := rfl
  lanes := by simp
  pending := by simp

/-- UPDATE adds its payload to what a context has taken, wherever the blocks are cut. -/
theorem hasTaken_absorb {row : VariantRow} {M : List Byte} {C : Context} (h : HasTaken row M C) (hR1 : 1 ≤ row.rate.toNat)
    (hR : row.rate.toNat ≤ Config.rateMax) (P : List Byte) : HasTaken row (M ++ P) (C.absorb P) := by
  obtain ⟨hmode, hrate, hdigest, hsuffix, hlanes, hpending⟩ := h
  obtain ⟨hlanes', hpending', -⟩ := Context.absorb_eq (hrate ▸ hR1) (hrate ▸ hR) P
  rw [hrate, hpending] at hlanes' hpending'
  rw [hlanes] at hlanes'
  obtain ⟨hblocks, hrest⟩ := absorbBlocks_resume hR1 .zero (M := M) (P := P) rfl
  exact ⟨hmode, hrate, hdigest, hsuffix, hlanes'.trans hblocks, hpending'.trans hrest⟩

/-- The finalized state of a context that has taken M is that of the single-shot functions (R164, R165, R170). -/
theorem finalized_of_hasTaken {row : VariantRow} {M : List Byte} {C : Context} (h : HasTaken row M C) :
    C.finalized = finalState row.rate.toNat row.suffix M := by
  rw [Context.finalized, h.lanes, h.pending, h.rate, h.suffix, finalState]

/-- The digest of a context that has taken M is H(M) (R164, R170). -/
theorem digest_of_hasTaken {row : VariantRow} {M : List Byte} {C : Context} (h : HasTaken row M C) : C.digest = hashOf row M := by
  rw [Context.digest, finalized_of_hasTaken h, h.rate, h.digestSize, hashOf]

/-! ## INIT and UPDATEs -/

/-- UPDATEs whose payloads make up P add P to what the context has taken. -/
theorem execAll_updates {row : VariantRow} (hR1 : 1 ≤ row.rate.toNat) (hR : row.rate.toNat ≤ Config.rateMax) {c : CtxIndex}
    {chunks : List (List Byte)} (hchunks : ∀ p ∈ chunks, p.length < 2 ^ 32) {s : State} {M : List Byte} {C : Context}
    (hC : s.context c = some C) (h : HasTaken row M C) :
    ∃ t D, execAll (chunks.map (updateWith c)) s = .next t ∧ t.context c = some D ∧ HasTaken row (M ++ chunks.flatten) D := by
  induction chunks generalizing s M C with
  | nil => exact ⟨s, C, rfl, hC, by simpa using h⟩
  | cons p chunks ih =>
    obtain ⟨hp, hchunks⟩ := List.forall_mem_cons.mp hchunks
    have hlen : p.length = (BitVec.ofNat 32 p.length).toNat := (Nat.mod_eq_of_lt hp).symm
    have hexec : exec (updateWith c p) s = .next ((s.setContext c (C.absorb p)).respond .ok []) :=
      execUpdate_of_absorbing hC h.mode hlen
    have hC' : ((s.setContext c (C.absorb p)).respond .ok []).context c = some (C.absorb p) := State.setContext_context_self hC
    obtain ⟨t, D, ht, hD, htaken⟩ := ih hchunks hC' (hasTaken_absorb h hR1 hR p)
    refine ⟨t, D, ?_, hD, ?_⟩
    · rw [List.map_cons, execAll_cons hexec, ht]
    · rwa [List.flatten_cons, ← List.append_assoc]

/-- INIT by a row of the table, then UPDATEs whose payloads make up M, leave a context that has taken M. -/
theorem execAll_init_updates {s : State} (hs : StateWf s) {c : CtxIndex} (hc : c.toNat < s.nctx) {v : VariantId} {row : VariantRow}
    (hrow : tableRow s.table v = some row) {chunks : List (List Byte)} (hchunks : ∀ p ∈ chunks, p.length < 2 ^ 32) :
    ∃ t D, execAll ([Instr.init c v] ++ chunks.map (updateWith c)) s = .next t ∧ t.context c = some D ∧
      HasTaken row chunks.flatten D := by
  obtain ⟨hR1, hR⟩ := rate_of_tableRow hs.2.1 hrow
  obtain ⟨C, hC⟩ := exists_context hc
  have hinit : exec (.init c v) s = _ := execInit_of_row hC hrow
  have hC' : ((s.setContext c (C.configure row (freeSqpos s.draws))).drawn.respond .ok []).context c = _ :=
    State.setContext_context_self hC
  obtain ⟨t, D, ht, hD, htaken⟩ := execAll_updates hR1 hR hchunks hC' (hasTaken_configure C row (freeSqpos s.draws))
  exact ⟨t, D, (execAll_append (execAll_singleton hinit)).trans ht, hD, by simpa using htaken⟩

/-- Settles O36: the context has taken M, so its digest is H(M). -/
theorem chunkingInvariance : Obligations.ChunkingInvariance := by
  unfold Obligations.ChunkingInvariance
  intro s c v row chunks hex hs hc hrow hD hchunks
  obtain ⟨t, C, ht, hC, htaken⟩ := execAll_init_updates hs hc hrow hchunks
  have hm : C.mode ≠ .unconfigured := by simp [htaken.mode]
  have hdigest := execDigest_of_fixed hC hm (htaken.digestSize.trans_ne hD) hex
  rw [digest_of_hasTaken htaken] at hdigest
  exact ⟨_, t.responses, (execAll_append ht).trans (execAll_singleton hdigest), rfl⟩

/-! ## The output stream -/

/-- Permuting k times and then j times is permuting k + j times. -/
theorem keccakPower_keccakPower (k j : Nat) (A : Lanes) : keccakPower j (keccakPower k A) = keccakPower (k + j) A := by
  induction j with
  | zero => rfl
  | succ j ih => rw [keccakPower, ih, ← Nat.add_assoc, keccakPower]

/-- The stream of the state permuted k times is the stream from k blocks on (41_sponge R134). -/
theorem streamPrefix_keccakPower {R : Nat} (hR1 : 1 ≤ R) (hR : R ≤ 200) (k : Nat) (A : Lanes) (m : Nat) :
    streamPrefix R (keccakPower k A) m = (streamPrefix R A (k * R + m)).drop (k * R) := by
  induction k generalizing A with
  | zero => simp only [keccakPower, Nat.zero_mul, Nat.zero_add, List.drop_zero]
  | succ k ih =>
    have hbytes : (k + 1) * R = R + k * R := by rw [Nat.succ_mul, Nat.add_comm]
    have hmore : R + k * R + m - R = k * R + m := by omega
    rw [← keccakPower_succ, ih, hbytes, streamPrefix_long hR1 hR A (by omega), hmore, ← List.drop_drop,
      List.drop_left' (squeezeBlock_length hR A)]

/-- The context, SQUEEZING by an XOF row, stands at byte N of the stream of A: its state is A permuted to the block its cursor counts in. -/
structure StandsAt (row : VariantRow) (A : Lanes) (N : Nat) (C : Context) : Prop where
  mode : C.mode = .squeezing
  rate : C.rate = row.rate
  digestSize : C.digestSize = 0
  cursor : C.sqpos.toNat ≤ row.rate.toNat
  block : ∃ k, C.lanes = keccakPower k A ∧ k * row.rate.toNat + C.sqpos.toNat = N

/-- The first SQUEEZE of a context that has taken M begins at byte 0 of the stream of its finalized state (R165, R170). -/
theorem standsAt_startSqueezing {row : VariantRow} {M : List Byte} {C : Context} (h : HasTaken row M C) (hD : row.digestSize = 0) :
    StandsAt row (finalState row.rate.toNat row.suffix M) 0 C.startSqueezing where
  mode := rfl
  rate := h.rate
  digestSize := h.digestSize.trans hD
  cursor := Nat.zero_le _
  block := ⟨0, finalized_of_hasTaken h, by simp⟩

/-- SqueezeOut of n bytes outputs the next n bytes of the stream and leaves the context n bytes on (41_sponge R136). -/
theorem squeezed_of_standsAt {row : VariantRow} {A : Lanes} {N : Nat} {C : Context} (h : StandsAt row A N C)
    (hR1 : 1 ≤ row.rate.toNat) (hR : row.rate.toNat ≤ Config.rateMax) (n : Nat) :
    (C.squeezed n).out = (streamPrefix row.rate.toNat A (N + n)).drop N ∧ StandsAt row A (N + n) (C.afterSqueeze n) := by
  obtain ⟨hmode, hrate, hdigest, hcursor, k, hlanes, rfl⟩ := h
  have hsq := Context.squeezed_eq (hrate ▸ hR1) (hrate ▸ hR) (hrate ▸ hcursor) n
  have hpos := afterSqueeze_sqpos_toNat (hrate ▸ hR1) (hrate ▸ hR) (hrate ▸ hcursor) n
  have hle := stream_cursor_le hR1 (C.sqpos.toNat + n)
  rw [hrate] at hsq hpos
  have hmul : row.rate.toNat * ((C.sqpos.toNat + n - 1) / row.rate.toNat) ≤ C.sqpos.toNat + n - 1 := Nat.mul_div_le _ _
  constructor
  · rw [hsq, hlanes, streamPrefix_keccakPower hR1 (Nat.le_trans hR (by decide)), List.drop_drop, Nat.add_assoc]
  · refine ⟨hmode, hrate, hdigest, hpos.trans_le hle, k + (C.sqpos.toNat + n - 1) / row.rate.toNat, ?_, ?_⟩
    · rw [Context.afterSqueeze_lanes, hsq, hlanes, keccakPower_keccakPower]
    · rw [hpos, Nat.add_mul, Nat.mul_comm ((C.sqpos.toNat + n - 1) / row.rate.toNat)]
      omega

/-- Two neighbouring pieces of the stream are one piece. -/
theorem streamPrefix_drop_append {R : Nat} (hR1 : 1 ≤ R) (hR : R ≤ 200) (A : Lanes) (N n m : Nat) :
    (streamPrefix R A (N + n)).drop N ++ (streamPrefix R A (N + n + m)).drop (N + n) = (streamPrefix R A (N + n + m)).drop N := by
  rw [← streamPrefix_take hR1 hR A (Nat.le_add_right (N + n) m), List.drop_take, Nat.add_sub_cancel_left, ← List.drop_drop,
    List.take_append_drop]

/-- SQUEEZE of a context whose squeezing stands at byte N outputs the next n bytes and leaves one whose squeezing stands n bytes on. -/
theorem exec_squeeze_of_standsAt {row : VariantRow} {A : Lanes} {N : Nat} (hR1 : 1 ≤ row.rate.toNat)
    (hR : row.rate.toNat ≤ Config.rateMax) {s : State} {c : CtxIndex} {C : Context} (hC : s.context c = some C)
    (hm : C.mode ≠ .unconfigured) (h : StandsAt row A N C.readyToSqueeze) (n : Word) :
    ∃ t D, exec (.squeeze c false n) s = .next t ∧
      t.responses = s.responses ++ [⟨.ok, (streamPrefix row.rate.toNat A (N + n.toNat)).drop N⟩] ∧
      t.context c = some D ∧ D.mode ≠ .unconfigured ∧ StandsAt row A (N + n.toNat) D.readyToSqueeze := by
  have hD : C.digestSize = 0 := (Context.readyToSqueeze_digestSize C).symm.trans h.digestSize
  have hexec := (execSqueeze_of_context hC false n).trans ((if_neg hm).trans (if_neg (not_not.mpr hD)))
  obtain ⟨hout, hafter⟩ := squeezed_of_standsAt h hR1 hR n.toNat
  refine ⟨_, _, hexec, by rw [hout]; rfl, State.setContext_context_self hC, hafter.mode.trans_ne (by decide), ?_⟩
  rwa [readyToSqueeze_of_squeezing hafter.mode]

/-- SQUEEZEs of any lengths output the bytes of the stream from byte N on, one after another. -/
theorem execAll_squeezes {row : VariantRow} {A : Lanes} (hR1 : 1 ≤ row.rate.toNat) (hR : row.rate.toNat ≤ Config.rateMax)
    {c : CtxIndex} (lengths : List Word) {s : State} {N : Nat} {C : Context} (hC : s.context c = some C)
    (hm : C.mode ≠ .unconfigured) (h : StandsAt row A N C.readyToSqueeze) :
    ∃ (t : State) (outs : List (List Byte)), execAll (lengths.map fun n => Instr.squeeze c false n) s = .next t ∧
      t.responses = s.responses ++ outs.map (fun out => ⟨.ok, out⟩) ∧ outs.map List.length = lengths.map BitVec.toNat ∧
      outs.flatten = (streamPrefix row.rate.toNat A (N + (lengths.map BitVec.toNat).sum)).drop N := by
  have hR200 : row.rate.toNat ≤ 200 := Nat.le_trans hR (by decide)
  induction lengths generalizing s N C with
  | nil => exact ⟨s, [], rfl, by simp, rfl, by simp [streamPrefix_length hR1 hR200]⟩
  | cons n lengths ih =>
    obtain ⟨t, D, ht, hresp, hD, hmD, hstands⟩ := exec_squeeze_of_standsAt hR1 hR hC hm h n
    obtain ⟨u, outs, hu, hrespu, hlengths, hflat⟩ := ih hD hmD hstands
    refine ⟨u, (streamPrefix row.rate.toNat A (N + n.toNat)).drop N :: outs, ?_, ?_, ?_, ?_⟩
    · rw [List.map_cons, execAll_cons ht, hu]
    · rw [hrespu, hresp, List.append_assoc]
      rfl
    · rw [List.map_cons, List.map_cons, hlengths, List.length_drop, streamPrefix_length hR1 hR200, Nat.add_sub_cancel_left]
    · rw [List.flatten_cons, hflat, streamPrefix_drop_append hR1 hR200, List.map_cons, List.sum_cons, Nat.add_assoc]

/-- Settles O37: the context has taken M, so its first SQUEEZE stands at byte 0 of the stream, and each one where the last left off. -/
theorem squeezesOutputOneStream : Obligations.SqueezesOutputOneStream := by
  unfold Obligations.SqueezesOutputOneStream
  intro s c v row chunks lengths hs hc hrow hD hchunks
  obtain ⟨hR1, hR⟩ := rate_of_tableRow hs.2.1 hrow
  obtain ⟨t, C, ht, hC, htaken⟩ := execAll_init_updates hs hc hrow hchunks
  have hstands := standsAt_startSqueezing htaken hD
  rw [← readyToSqueeze_of_absorbing htaken.mode] at hstands
  obtain ⟨u, outs, hu, hresp, hlengths, hflat⟩ :=
    execAll_squeezes hR1 hR lengths hC (htaken.mode.trans_ne (by decide)) hstands
  refine ⟨u, t.responses, outs, (execAll_append ht).trans hu, hresp, hlengths, ?_⟩
  rw [hflat, Nat.zero_add, List.drop_zero, xofOutput]

/-! ## NEW -/

/-- Settles O50: NEW with empty data is NEW and then an UPDATE that brings no byte, which changes nothing of the context just
initialised. -/
theorem newWithEmptyDataIsNew : Obligations.NewWithEmptyDataIsNew := by
  unfold Obligations.NewWithEmptyDataIsNew
  intro s c v row hs hc hrow
  obtain ⟨hR1, hR⟩ := rate_of_tableRow hs.2.1 hrow
  obtain ⟨C, hC⟩ := exists_context hc
  have hinit : exec (.init c v) s = _ := execInit_of_row hC hrow
  have hC' : ((s.setContext c (C.configure row (freeSqpos s.draws))).drawn.respond .ok []).context c = _ :=
    State.setContext_context_self hC
  have hupdate : exec (updateWith c []) _ = _ := execUpdate_of_absorbing (payload := []) hC' rfl rfl
  rw [Context.absorb_nil (C := C.configure row _) hR hR1, State.setContext_same hC'] at hupdate
  exact ⟨_, _, execAll_singleton hinit, (execAll_append (execAll_singleton hinit)).trans (execAll_singleton hupdate), rfl, rfl⟩

end Sys2Proof.Proofs
end

