-- ==== Sys2Proof/Proofs/Padding.lean ====
section
/-! PROOF. Padding (spec/42_padding.md): the padded blocks, read as bits, are the stream of pad10*1, and the stream determines the message. -/

namespace Sys2Proof.Proofs

open Sys2Proof.Machine Sys2Proof.Safety

/-! ## Bits of byte strings -/

theorem byteBits_eq_map (b : Byte) : byteBits b = (List.range 8).map b.getLsbD := rfl

@[simp] theorem byteBits_length (b : Byte) : (byteBits b).length = 8 := rfl

@[simp] theorem bitString_nil : bitString [] = [] := rfl

@[simp] theorem bitString_cons (b : Byte) (M : List Byte) : bitString (b :: M) = byteBits b ++ bitString M := rfl

@[simp] theorem bitString_append (M N : List Byte) : bitString (M ++ N) = bitString M ++ bitString N := List.flatMap_append

@[simp] theorem bitString_length (M : List Byte) : (bitString M).length = 8 * M.length := by
  induction M with
  | nil => rfl
  | cons b M ih =>
    rw [bitString_cons, List.length_append, ih, byteBits_length, List.length_cons]
    omega

@[simp] theorem bitString_zeros (n : Nat) : bitString (zeros n) = List.replicate (8 * n) false := by
  induction n with
  | zero => rfl
  | succ n ih =>
    have hzero : byteBits 0 = List.replicate 8 false := by decide
    rw [zeros, List.replicate_succ, bitString_cons, hzero, ← zeros, ih, List.replicate_append_replicate, Nat.mul_succ, Nat.add_comm]

/-- A byte is known by its bits. -/
theorem byteBits_injective : Function.Injective byteBits := fun b c h => by
  rw [byteBits_eq_map, byteBits_eq_map, List.map_inj_left] at h
  exact BitVec.eq_of_getLsbD_eq fun i hi => h i (List.mem_range.mpr hi)

/-- A byte string is known by its bits (R153). -/
theorem bitString_injective : Function.Injective bitString := by
  intro M
  induction M with
  | nil =>
    intro N h
    cases N with
    | nil => rfl
    | cons c N => exact absurd (congrArg List.length h) (by simp; omega)
  | cons b M ih =>
    intro N h
    cases N with
    | nil => exact absurd (congrArg List.length h) (by simp)
    | cons c N =>
      obtain ⟨hb, hM⟩ := List.append_inj h rfl
      rw [byteBits_injective hb, ih hM]

/-! ## The padded stream determines the message -/

/-- The zeros before the last 1 of a bit string are counted by the string. -/
theorem replicate_false_append_inj {j j' : Nat} {X Y : List Bool}
    (h : List.replicate j false ++ true :: X = List.replicate j' false ++ true :: Y) : X = Y := by
  induction j generalizing j' with
  | zero => cases j' <;> simp_all [List.replicate_succ]
  | succ j ih =>
    cases j' with
    | zero => simp [List.replicate_succ] at h
    | succ j' => exact ih (by simpa [List.replicate_succ] using h)

/-- Settles O47: read from its end, the stream is a 1, the zeros, a 1, the suffix and the message. -/
theorem paddingIsInjective : Obligations.PaddingIsInjective := by
  unfold Obligations.PaddingIsInjective
  intro M M' s R _ h
  have hrev := congrArg List.reverse h
  simp only [paddedStream, List.reverse_append, List.reverse_replicate, List.reverse_cons, List.reverse_nil, List.nil_append,
    List.singleton_append, List.cons.injEq, true_and] at hrev
  have hmsg := replicate_false_append_inj hrev
  exact bitString_injective (List.reverse_injective (List.append_cancel_left hmsg))

/-! ## The suffix byte -/

/-- Bit i of the number of a bit string is the bit there, and 0 past its end. -/
theorem testBit_bitsNat (t : List Bool) (i : Nat) : (bitsNat t).testBit i = t.getD i false := by
  induction t generalizing i with
  | nil => simp [bitsNat]
  | cons b t ih =>
    cases i with
    | zero => cases b <;> simp [bitsNat]
    | succ i =>
      have hhalf : (b.toNat + 2 * bitsNat t) / 2 = bitsNat t := by
        have hb := b.toNat_lt
        omega
      rw [bitsNat, Nat.testBit_succ, hhalf, ih, List.getD_cons_succ]

/-- The number of a bit string is below the power of two of its length. -/
theorem bitsNat_lt (t : List Bool) : bitsNat t < 2 ^ t.length := by
  induction t with
  | nil => simp [bitsNat]
  | cons b t ih =>
    have hb := b.toNat_lt
    rw [bitsNat, List.length_cons, Nat.pow_succ]
    omega

/-- One more bit at the end has the weight of its place. -/
theorem bitsNat_append_true (t : List Bool) : bitsNat (t ++ [true]) = bitsNat t + 2 ^ t.length := by
  induction t with
  | nil => rfl
  | cons b t ih =>
    rw [List.cons_append, bitsNat, ih, bitsNat, List.length_cons, Nat.pow_succ]
    omega

/-- The bits of the byte of at most eight bits are those bits and zeros. -/
theorem byteBits_ofNat_bitsNat {t : List Bool} (h : t.length ≤ 8) :
    byteBits (BitVec.ofNat 8 (bitsNat t)) = t ++ List.replicate (8 - t.length) false := by
  refine List.ext_getElem? fun i => ?_
  rw [byteBits_eq_map, List.getElem?_map]
  by_cases hi : i < 8
  · rw [List.getElem?_range hi, Option.map_some, BitVec.getLsbD_ofNat, testBit_bitsNat, decide_eq_true hi, Bool.true_and,
      List.getD_eq_getElem?_getD]
    by_cases hit : i < t.length
    · simp [hit, List.getElem?_append_left hit]
    · have hrest : i - t.length < 8 - t.length := by omega
      simp [List.getElem?_append_right (Nat.not_lt.mp hit), Nat.not_lt.mp hit, hrest]
  · have hlen : (t ++ List.replicate (8 - t.length) false).length ≤ i := by simp; omega
    rw [List.getElem?_eq_none (by simpa using hi), List.getElem?_eq_none hlen, Option.map_none]

/-- The bits of the suffix byte: the suffix, the first 1 of the padding, and zeros (R154). -/
theorem byteBits_delimitedSuffix {s : List Bool} (h : s.length ≤ 7) :
    byteBits (delimitedSuffix s) = s ++ true :: List.replicate (7 - s.length) false := by
  rw [delimitedSuffix, ← bitsNat_append_true, byteBits_ofNat_bitsNat (by rw [List.length_append]; exact Nat.succ_le_succ h)]
  simp

/-- The suffix byte has its high bit set exactly for a suffix of seven bits. -/
theorem delimitedSuffix_high {s : List Bool} (h : s.length ≤ 7) : 0x80 ≤ (delimitedSuffix s).toNat ↔ s.length = 7 := by
  have hlt := bitsNat_lt s
  have hpow : 2 ^ s.length ≤ 2 ^ 7 := Nat.pow_le_pow_right (by decide) h
  have hnat : (delimitedSuffix s).toNat = bitsNat s + 2 ^ s.length := Nat.mod_eq_of_lt (by omega)
  rw [hnat]
  constructor
  · intro hge
    by_contra hne
    have hpow' : 2 ^ s.length ≤ 2 ^ 6 := Nat.pow_le_pow_right (by decide) (by omega)
    omega
  · intro heq
    rw [heq]
    omega

/-! ## The padded blocks -/

/-- Changing the byte after the first ones. -/
theorem modify_append_cons {α : Type} (f : α → α) (Q : List α) (b : α) (N : List α) :
    (Q ++ b :: N).modify Q.length f = Q ++ f b :: N := by
  induction Q with
  | nil => rfl
  | cons q Q ih => rw [List.cons_append, List.length_cons, List.modify_succ_cons, ih, List.cons_append]

/-- The block with the suffix byte at the end of the message (R150). -/
theorem modify_suffix {M : List Byte} {R : Nat} (h : M.length < R) (d : Byte) :
    (M ++ zeros (R - M.length)).modify M.length (· ^^^ d) = M ++ d :: zeros (R - 1 - M.length) := by
  have hzeros : zeros (R - M.length) = 0 :: zeros (R - 1 - M.length) := by
    rw [zeros, zeros, ← List.replicate_succ]
    congr 1
    omega
  rw [hzeros, modify_append_cons]
  simp

/-- The bits of that block: the message, the suffix, a 1, and zeros to the end of the block. -/
theorem bitString_suffix {M : List Byte} {s : List Bool} {R : Nat} (h : M.length < R) (hs : s.length ≤ 7) :
    bitString (M ++ delimitedSuffix s :: zeros (R - 1 - M.length)) =
      bitString M ++ s ++ [true] ++ List.replicate (8 * R - (8 * M.length + s.length + 1)) false := by
  have hcount : 7 - s.length + 8 * (R - 1 - M.length) = 8 * R - (8 * M.length + s.length + 1) := by omega
  simp [byteBits_delimitedSuffix hs, ← hcount, ← List.replicate_append_replicate]

/-- Exclusive-oring 0x80 into a byte changes its last bit (R153). -/
theorem byteBits_flip_high (b : Byte) : ∃ low, byteBits b = low ++ [b.getLsbD 7] ∧ byteBits (b ^^^ 0x80) = low ++ [!b.getLsbD 7] :=
  ⟨(List.range 7).map b.getLsbD, rfl, by simp [byteBits, List.range_succ]⟩

/-- Exclusive-oring 0x80 into the last byte turns the last bit of a block from 0 to 1 (R150). -/
theorem bitString_modify_last {P : List Byte} {R : Nat} (hlen : P.length = R) (hR : 1 ≤ R) {X : List Bool}
    (h : bitString P = X ++ [false]) : bitString (P.modify (R - 1) (· ^^^ 0x80)) = X ++ [true] := by
  obtain ⟨Q, b, rfl⟩ : ∃ Q b, P = Q ++ [b] := ⟨_, _, (List.dropLast_append_getLast (List.ne_nil_of_length_pos (by omega))).symm⟩
  obtain ⟨low, hb, hb'⟩ := byteBits_flip_high b
  have hQ : R - 1 = Q.length := by
    rw [List.length_append, List.length_singleton] at hlen
    omega
  have hlast : bitString Q ++ low = X ∧ b.getLsbD 7 = false := by
    rw [bitString_append, bitString_cons, bitString_nil, List.append_nil, hb, ← List.append_assoc] at h
    simpa using List.append_inj' h rfl
  obtain ⟨rfl, hbit⟩ := hlast
  rw [hQ, modify_append_cons, bitString_append, bitString_cons, hb', hbit, bitString_nil, List.append_nil, ← List.append_assoc,
    Bool.not_false]

/-- The padding fills whole blocks (R153). -/
theorem dvd_padZeros (n : Nat) {R : Nat} (hR : 1 ≤ R) : 8 * R ∣ n + 2 + padZeros n R := by
  have hlt : (n + 2) % (8 * R) < 8 * R := Nat.mod_lt _ (by omega)
  have hdiv := Nat.div_add_mod (n + 2) (8 * R)
  have hfill : n + 2 + (8 * R - (n + 2) % (8 * R)) = 8 * R * ((n + 2) / (8 * R) + 1) := by
    rw [Nat.mul_succ]
    omega
  rw [padZeros, Nat.dvd_iff_mod_eq_zero, Nat.add_mod_mod, hfill, Nat.mul_mod_right]

/-- With room for both 1 bits in the block, the padding ends with it. -/
theorem padZeros_of_le {n R : Nat} (h : n + 2 ≤ 8 * R) : padZeros n R = 8 * R - (n + 2) := by
  rcases Nat.lt_or_eq_of_le h with hlt | heq
  · rw [padZeros, Nat.mod_eq_of_lt hlt, Nat.mod_eq_of_lt (by omega)]
  · rw [padZeros, heq, Nat.mod_self, Nat.sub_zero, Nat.mod_self, Nat.sub_self]

/-- With room for one of them only, the padding takes another block, all zeros but its last bit (R151). -/
theorem padZeros_of_full {n R : Nat} (hR : 1 ≤ R) (h : n + 1 = 8 * R) : padZeros n R = 8 * R - 1 := by
  have hmod : (n + 2) % (8 * R) = 1 := by
    rw [show n + 2 = 1 + 8 * R by omega, Nat.add_mod_right, Nat.mod_eq_of_lt (by omega)]
  rw [padZeros, hmod, Nat.mod_eq_of_lt (by omega)]

/-- The length of the padded stream. -/
theorem paddedStream_length (M : List Byte) (s : List Bool) (R : Nat) :
    (paddedStream M s R).length = 8 * M.length + s.length + 2 + padZeros (8 * M.length + s.length) R := by
  simp only [paddedStream, List.length_append, bitString_length, List.length_replicate, List.length_singleton]
  omega

/-- With seven suffix bits after R - 1 bytes the padding takes two blocks (R151). -/
theorem padBlocks_of_full {M : List Byte} {s : List Bool} {R : Nat} (hM : M.length < R) (hs : s.length = 7) (hfull : M.length = R - 1) :
    padBlocks M R (delimitedSuffix s) =
      [M ++ delimitedSuffix s :: zeros (R - 1 - M.length), zeros (R - 1) ++ [0x80]] := by
  have hhigh : 0x80 ≤ (delimitedSuffix s).toNat := (delimitedSuffix_high hs.le).mpr hs
  simp only [padBlocks, modify_suffix hM, if_pos (And.intro hhigh hfull)]

/-- Else the padding ends with the block of the suffix byte (R150). -/
theorem padBlocks_of_room {M : List Byte} {s : List Bool} {R : Nat} (hM : M.length < R) (hs : s.length ≤ 7)
    (hroom : ¬ (s.length = 7 ∧ M.length = R - 1)) :
    padBlocks M R (delimitedSuffix s) =
      [(M ++ delimitedSuffix s :: zeros (R - 1 - M.length)).modify (R - 1) (· ^^^ 0x80)] := by
  rw [← delimitedSuffix_high hs] at hroom
  simp only [padBlocks, modify_suffix hM, if_neg hroom]

/-- The block of the suffix byte has R bytes. -/
theorem suffix_block_length {M : List Byte} {R : Nat} (hM : M.length < R) (d : Byte) :
    (M ++ d :: zeros (R - 1 - M.length)).length = R := by
  simp only [List.length_append, List.length_cons, zeros, List.length_replicate]
  omega

/-- Two blocks: the first ends with the suffix and a 1, and the second is zeros and a 1. -/
theorem padBlocks_bits_of_full {M : List Byte} {s : List Bool} {R : Nat} (hM : M.length < R) (hs : s.length = 7)
    (hfull : M.length = R - 1) : bitString (padBlocks M R (delimitedSuffix s)).flatten = paddedStream M s R := by
  have hlast : bitString [0x80] = List.replicate 7 false ++ [true] := by decide
  have hend : 8 * R - (8 * M.length + s.length + 1) = 0 := by omega
  have hzeros : padZeros (8 * M.length + s.length) R = 8 * (R - 1) + 7 := by
    rw [padZeros_of_full (by omega) (by omega)]
    omega
  rw [padBlocks_of_full hM hs hfull, List.flatten_cons, List.flatten_cons, List.flatten_nil, List.append_nil, bitString_append,
    bitString_suffix hM hs.le, hend, List.replicate_zero, List.append_nil, bitString_append, bitString_zeros, hlast, paddedStream, hzeros,
    ← List.replicate_append_replicate]
  simp only [List.append_assoc]

/-- One block: its last bit is the last 1 of the padding. -/
theorem padBlocks_bits_of_room {M : List Byte} {s : List Bool} {R : Nat} (hM : M.length < R) (hs : s.length ≤ 7)
    (hroom : ¬ (s.length = 7 ∧ M.length = R - 1)) :
    bitString (padBlocks M R (delimitedSuffix s)).flatten = paddedStream M s R := by
  have hle : 8 * M.length + s.length + 2 ≤ 8 * R := by omega
  have hcount : 8 * R - (8 * M.length + s.length + 1) = padZeros (8 * M.length + s.length) R + 1 := by
    rw [padZeros_of_le hle]
    omega
  have hbits := bitString_suffix hM hs
  rw [hcount, List.replicate_succ', ← List.append_assoc] at hbits
  rw [padBlocks_of_room hM hs hroom, List.flatten_singleton, bitString_modify_last (suffix_block_length hM _) (by omega) hbits,
    paddedStream]

/-- Every padded block has R bytes (R150, R151). -/
theorem length_of_mem_padBlocks {M : List Byte} {s : List Bool} {R : Nat} (hM : M.length < R) (hs : s.length ≤ 7) {P : List Byte}
    (hP : P ∈ padBlocks M R (delimitedSuffix s)) : P.length = R := by
  by_cases hfull : s.length = 7 ∧ M.length = R - 1
  · rw [padBlocks_of_full hM hfull.1 hfull.2, List.mem_cons, List.mem_singleton] at hP
    rcases hP with rfl | rfl
    · exact suffix_block_length hM _
    · simp only [List.length_append, zeros, List.length_replicate, List.length_singleton]
      omega
  · rw [padBlocks_of_room hM hs hfull, List.mem_singleton] at hP
    rw [hP, List.length_modify, suffix_block_length hM]

/-- Settles O46: two blocks or one, by whether the suffix byte leaves room for the last 1. -/
theorem paddedBlocksAreTheBitRule : Obligations.PaddedBlocksAreTheBitRule := by
  unfold Obligations.PaddedBlocksAreTheBitRule
  intro M s R hM hs
  refine ⟨?_, fun P => length_of_mem_padBlocks hM hs, ?_, Nat.mod_lt _ (by omega)⟩
  · by_cases hfull : s.length = 7 ∧ M.length = R - 1
    · exact padBlocks_bits_of_full hM hfull.1 hfull.2
    · exact padBlocks_bits_of_room hM hs hfull
  · rw [paddedStream_length]
    exact dvd_padZeros _ (by omega)

end Sys2Proof.Proofs
end

