-- ==== Sys2Proof/Proofs/Tables.lean ====
section
/-! PROOF. Hex text (spec/43_engine_commands.md section 3), the rows of the variant table (spec/43_engine_commands.md section 1,
spec/42_padding.md section 1), and the examples of the command rules (spec/43_engine_commands.md section 2). -/

namespace Sys2Proof.Proofs

open Sys2Proof.Machine Sys2Proof.Safety

/-! ## Hex text -/

@[simp] theorem hexText_cons (b : Byte) (s : List Byte) :
    hexText (b :: s) = hexDigit (b.extractLsb' 4 4) :: hexDigit (b.extractLsb' 0 4) :: hexText s := rfl

/-- The digit of a nibble, from the sixteen in order (R173). -/
theorem hexDigit_eq_getElem? : ∀ n : BitVec 4, some (hexDigit n) =
    ([0x30, 0x31, 0x32, 0x33, 0x34, 0x35, 0x36, 0x37, 0x38, 0x39, 0x61, 0x62, 0x63, 0x64, 0x65, 0x66] : List Byte)[n.toNat]? := by
  decide

/-- A digit is read back as its nibble. -/
theorem nibbleOf_hexDigit : ∀ n : BitVec 4, nibbleOf (hexDigit n) = some n := by decide

/-- The two digits of byte k of a string stand at 2·k and 2·k + 1, the high nibble first (R173). -/
theorem hexText_getElem? {s : List Byte} {k : Nat} {b : Byte} (h : s[k]? = some b) :
    (hexText s)[2 * k]? = some (hexDigit (b.extractLsb' 4 4)) ∧ (hexText s)[2 * k + 1]? = some (hexDigit (b.extractLsb' 0 4)) := by
  induction s generalizing k with
  | nil => simp at h
  | cons c s ih =>
    cases k with
    | zero =>
      obtain rfl : c = b := by simpa using h
      exact ⟨rfl, rfl⟩
    | succ k => exact ih (by simpa using h)

/-- The nibbles of a byte by division. -/
theorem nibbles_toNat (b : Byte) : (b.extractLsb' 4 4).toNat = b.toNat / 16 ∧ (b.extractLsb' 0 4).toNat = b.toNat % 16 := by
  have hlt := b.isLt
  rw [BitVec.extractLsb'_toNat, BitVec.extractLsb'_toNat, Nat.shiftRight_eq_div_pow, Nat.shiftRight_eq_div_pow]
  omega

/-- Hex decoding undoes Hex (R173). -/
theorem hexDecode_hexText (s : List Byte) : hexDecode (hexText s) = some s := by
  induction s with
  | nil => rfl
  | cons b s ih =>
    have hb : (b.extractLsb' 4 4 ++ b.extractLsb' 0 4 : BitVec 8) = b := by
      rw [BitVec.extractLsb'_append_extractLsb'_eq_extractLsb' (by rfl)]
      exact BitVec.extractLsb'_eq_self
    simp only [hexText_cons, hexDecode, nibbleOf_hexDigit, ih, hb]

/-- Settles O24: each byte's two digits, and the decoder that undoes them. -/
theorem hexTextRule : Obligations.HexTextRule := by
  unfold Obligations.HexTextRule
  refine ⟨hexText_length, fun s k b h => ?_, hexDecode_hexText, fun s t h => ?_⟩
  · obtain ⟨hhigh, hlow⟩ := hexText_getElem? h
    obtain ⟨hdiv, hmod⟩ := nibbles_toNat b
    rw [hhigh, hlow, hexDigit_eq_getElem?, hexDigit_eq_getElem?, hdiv, hmod]
    exact ⟨rfl, rfl⟩
  · exact Option.some.inj ((hexDecode_hexText s).symm.trans (h ▸ hexDecode_hexText t))

/-! ## The variant table -/

/-- Settles O48: the three suffixes, and the d of the ten rows. -/
theorem suffixBytesOfTheRows : Obligations.SuffixBytesOfTheRows := by
  unfold Obligations.SuffixBytesOfTheRows
  refine ⟨by decide, by decide, by decide, fun x => ?_⟩
  cases x <;> decide

/-- Settles O49: the ten rows one by one, and the ids as those INIT refuses. -/
theorem variantRowsAreConsistent : Obligations.VariantRowsAreConsistent := by
  unfold Obligations.VariantRowsAreConsistent
  refine fun x => ⟨?_, fun v => row_eq_none_iff_unassigned (s := State.resetWith 1 x) ?_ v⟩
  · cases x <;> decide
  · exact (stateWf_resetWith (by decide) (by decide) x).2.1

/-! ## The examples of the command rules -/

/-- A list of commands always ends in a next state: no command faults or is refused (60_exceptions R214). -/
theorem exists_execAll (is : List Instr) (s : State) : ∃ t, execAll is s = .next t := by
  induction is generalizing s with
  | nil => exact ⟨s, rfl⟩
  | cons i is ih =>
    obtain ⟨_, _, _, -, h⟩ := exec_ignoresPort i s
    have hexec : exec i s = _ := h s.input s.responses
    rw [execAll_cons hexec]
    exact ih _

/-- The responses of the state a list of commands ends in. -/
def responsesAfter (is : List Instr) (s : State) : List Response :=
  match execAll is s with
  | .next t => t.responses
  | .fault _ | .refused _ => []

theorem responses_of_execAll {is : List Instr} {s t : State} (h : execAll is s = .next t) : t.responses = responsesAfter is s := by
  simp only [responsesAfter, h]

/-- Settles O18: the eleven commands run in the kernel; the free values INIT and FREE take stand in no response. -/
theorem examplesOfTheCommandRules : Obligations.ExamplesOfTheCommandRules := by
  unfold Obligations.ExamplesOfTheCommandRules
  obtain ⟨t, ht⟩ := exists_execAll _ _
  refine ⟨t, ht, (responses_of_execAll ht).trans ?_⟩
  decide +kernel

end Sys2Proof.Proofs
end
